-- ==== Sys2Proof/Word.lean ====
section
/-! DEFINITION. The cell type of CPUsu CORE (00_scope.md R7, R8): every register, the program counter, every
memory cell and every instruction word is one 16-bit vector. There is no byte and no byte order (20_memory.md R52).
The unsigned reading `u(v)` of the spec is `v.toNat`, the signed reading `s(v)` is `v.toInt`, and `W16(n)` is
`BitVec.ofInt 16 n`. -/

namespace Sys2Proof

/-- `W16` of R8: one 16-bit cell. `+` and `-` on it are modulo 65536, as R8 says. -/
abbrev W16 := BitVec 16

/-- A screen offset, 0 to 8191: thirteen bits (10_state.md R35). -/
abbrev Offset := BitVec 13

end Sys2Proof
end

