-- ==== Sys2Proof/Config.lean ====
section
/-! DEFINITION. The parameters of this hardware (00_scope.md R5, constants) and the ones the source leaves open
(R6). No free value stands here: every open value has a numbered rule that fixes it or a log entry that names it. -/

namespace Sys2Proof.Config

/-- ROM_WORDS of R5: instruction memory cells. -/
abbrev romWords : Nat := 0x8000

/-- RAM_WORDS of R5: data RAM cells. -/
abbrev ramWords : Nat := 0x4000

/-- SCREEN_WORDS of R5: screen buffer cells. -/
abbrev screenWords : Nat := 0x2000

/-- SCREEN_BASE of R5: the first screen address. -/
abbrev screenBase : Nat := 0x4000

/-- SCREEN_W of R5. -/
abbrev screenW : Nat := 128

/-- SCREEN_H of R5. -/
abbrev screenH : Nat := 64

/-- KBD_ADDR of R5: the keyboard register's data address. -/
abbrev kbdAddr : Nat := 0x6000

/-- SP_INIT of R5: the reset value of register 6. -/
abbrev spInit : W16 := 0x3FFF

/-- PC_INIT of R5: the reset value of the program counter. -/
abbrev pcInit : W16 := 0x0000

/-- HALT_WORD of R5: the halt sentinel. -/
abbrev haltWord : W16 := 0x0000

/-- FREQ_SET of R5: the eighteen documented frequencies. The port does not check against it (45_throttle.md R181). -/
def freqSet : List Nat := (List.range 18).map (2 ^ ·)

/-- What a cell that no entry lists reads as: 0x0000 in ROM, RAM and screen alike, the power-on contents of
R40 (ROM_INIT, SCREEN_INIT; RAM is zero by reset). UNVERIFIED: decision D13 of the spec, log entry 3; unsafe. -/
def unlistedCell : W16 := 0x0000

/-- KBD_INIT of R6, 0x0000 by R40. UNVERIFIED: decision D13 of the spec, log entry 3; unsafe. -/
def kbdInit : W16 := 0x0000

/-- FREQ_INIT of R6, the frequency at power-on, which the spec leaves OPEN.
DESIGN CHOICE: 0, so that no tick executes anything before the host sets a frequency (log entry 4); unsafe. -/
def freqInit : Nat := 0

end Sys2Proof.Config
end

