-- ==== Sys2Proof/Syntax.lean ====
section
/-! DEFINITION. The instruction set as syntax (00_scope.md R2, 30_encoding.md R84 to R91): one constructor per row
of spec/opcode_table.json. Operands stand in the order of the assembler syntax of R99. -/

namespace Sys2Proof

/-- The eight general registers `R0` to `R7` (10_state.md R20). None is hardwired (R21). -/
inductive Reg where
  | r0 | r1 | r2 | r3 | r4 | r5 | r6 | r7
  deriving DecidableEq, Repr

/-- The closed instruction list of R2, and the halt sentinel, which the opcode table lists as a row. -/
inductive Instr where
  /-- `AND rd, rs, rt` (R110). -/
  | and (rd rs rt : Reg)
  /-- `OR rd, rs, rt` (R111). -/
  | or (rd rs rt : Reg)
  /-- `ADD rd, rs, rt` (R112). -/
  | add (rd rs rt : Reg)
  /-- `SUB rd, rs, rt` (R113). -/
  | sub (rd rs rt : Reg)
  /-- `SLT rd, rs, rt` (R114). -/
  | slt (rd rs rt : Reg)
  /-- `LW rt, imm(rs)` (R121). -/
  | lw (rt rs : Reg) (imm : BitVec 6)
  /-- `SW rt, imm(rs)` (R122). -/
  | sw (rt rs : Reg) (imm : BitVec 6)
  /-- `BEQ rs, rt, imm` (R130). -/
  | beq (rs rt : Reg) (imm : BitVec 6)
  /-- `J addr` (R132). -/
  | j (addr : BitVec 12)
  /-- `ADDI rt, rs, imm` (R120). -/
  | addi (rt rs : Reg) (imm : BitVec 6)
  /-- `BNE rs, rt, imm` (R131). -/
  | bne (rs rt : Reg) (imm : BitVec 6)
  /-- `JR rs` (R133). The ignored bits 8..0 are no operand (R95). -/
  | jr (rs : Reg)
  /-- `JAL addr` (R134). -/
  | jal (addr : BitVec 12)
  /-- `DISPLAY` (R140). The ignored bits 11..0 are no operand (R95). -/
  | display
  /-- The halt sentinel, the word 0x0000 (R94, R141). -/
  | halt
  deriving DecidableEq, Repr

end Sys2Proof
end

