-- ==== Sys2Proof/WellFormed.lean ====
section
/-! DEFINITION. Which instructions of the syntax have a word of their own. The operand types already carry every
field width, so one check is left: `AND R0, R0, R0` is not executable, its word being the halt sentinel
(30_encoding.md R94, 40_alu.md R110). -/

namespace Sys2Proof

/-- The check of R94 and R110: the only three-register form without a word is `AND R0, R0, R0`. -/
def Instr.wf : Instr → Bool
  | .and rd rs rt => !(rd == .r0 && rs == .r0 && rt == .r0)
  | .or _ _ _ => true
  | .add _ _ _ => true
  | .sub _ _ _ => true
  | .slt _ _ _ => true
  | .lw _ _ _ => true
  | .sw _ _ _ => true
  | .beq _ _ _ => true
  | .j _ => true
  | .addi _ _ _ => true
  | .bne _ _ _ => true
  | .jr _ => true
  | .jal _ => true
  | .display => true
  | .halt => true

/-- An instruction that some word of R90 and R91 stands for. -/
abbrev WellFormed (i : Instr) : Prop := i.wf = true

end Sys2Proof
end

