-- ==== Sys2Proof/Decode.lean ====
section
/-! DEFINITION. The Instruction Decoder (30_encoding.md R80 to R86), the opcode map (R90, R91), the illegal and
ignored encodings (R92 to R95), the decode order (R98), and the encoder of R101. -/

namespace Sys2Proof

/-- The seven fields of R81, each an unsigned number of its own width. They overlap by design (R83). -/
structure Fields where
  op : BitVec 4
  rs : BitVec 3
  rt : BitVec 3
  rd : BitVec 3
  funct : BitVec 3
  imm : BitVec 6
  addr : BitVec 12
  deriving DecidableEq, Repr

/-- The Instruction Decoder of R81 and R82: pure bit-field extraction, total on all 65536 words. -/
def decodeFields (w : W16) : Fields where
  op := w.extractLsb' 12 4
  rs := w.extractLsb' 9 3
  rt := w.extractLsb' 6 3
  rd := w.extractLsb' 3 3
  funct := w.extractLsb' 0 3
  imm := w.extractLsb' 0 6
  addr := w.extractLsb' 0 12

/-- A 3-bit register field is the register index directly (R89, 10_state.md R20). -/
def regOf (b : BitVec 3) : Reg :=
  match b.toNat with
  | 0 => .r0
  | 1 => .r1
  | 2 => .r2
  | 3 => .r3
  | 4 => .r4
  | 5 => .r5
  | 6 => .r6
  | _ => .r7

/-- The 3-bit field that selects a register (R89). -/
def regBits : Reg → BitVec 3
  | .r0 => 0#3
  | .r1 => 1#3
  | .r2 => 2#3
  | .r3 => 3#3
  | .r4 => 4#3
  | .r5 => 5#3
  | .r6 => 6#3
  | .r7 => 7#3

/-- The two ways a word is rejected, by name and with the field the error carries (R92, R93). -/
inductive DecodeError where
  /-- An opcode field of 0x9 to 0xE (R92). -/
  | invalidOpcode (op : BitVec 4)
  /-- Opcode 0x0 with a function code of 3, 4 or 5 (R93). -/
  | invalidALUFunction (funct : BitVec 3)
  deriving DecidableEq, Repr

/-- The function-code table of R91, complete for all eight values. -/
def decodeAlu (f : Fields) : Except DecodeError Instr :=
  match f.funct.toNat with
  | 0 => .ok (.and (regOf f.rd) (regOf f.rs) (regOf f.rt))
  | 1 => .ok (.or (regOf f.rd) (regOf f.rs) (regOf f.rt))
  | 2 => .ok (.add (regOf f.rd) (regOf f.rs) (regOf f.rt))
  | 6 => .ok (.sub (regOf f.rd) (regOf f.rs) (regOf f.rt))
  | 7 => .ok (.slt (regOf f.rd) (regOf f.rs) (regOf f.rt))
  | _ => .error (.invalidALUFunction f.funct)

/-- The opcode table of R90, complete for all sixteen values. -/
def decodeOp (f : Fields) : Except DecodeError Instr :=
  match f.op.toNat with
  | 0x0 => decodeAlu f
  | 0x1 => .ok (.lw (regOf f.rt) (regOf f.rs) f.imm)
  | 0x2 => .ok (.sw (regOf f.rt) (regOf f.rs) f.imm)
  | 0x3 => .ok (.beq (regOf f.rs) (regOf f.rt) f.imm)
  | 0x4 => .ok (.j f.addr)
  | 0x5 => .ok (.addi (regOf f.rt) (regOf f.rs) f.imm)
  | 0x6 => .ok (.bne (regOf f.rs) (regOf f.rt) f.imm)
  | 0x7 => .ok (.jr (regOf f.rs))
  | 0x8 => .ok (.jal f.addr)
  | 0xF => .ok .display
  | _ => .error (.invalidOpcode f.op)

/-- The tests on a fetched word in the order of R98: the halt sentinel before any decoding, then the opcode,
then, for opcode 0x0 only, the function code. -/
def decode (w : W16) : Except DecodeError Instr :=
  if w = Config.haltWord then .ok .halt else decodeOp (decodeFields w)

/-- R-format of R84: `0000 sss ttt ddd fff`. -/
def encodeR (rs rt rd : Reg) (funct : BitVec 3) : W16 :=
  (0x0#4 ++ regBits rs ++ regBits rt ++ regBits rd ++ funct : BitVec (4 + 3 + 3 + 3 + 3))

/-- I-format of R85: `oooo sss ttt iiiiii`. -/
def encodeI (op : BitVec 4) (rs rt : Reg) (imm : BitVec 6) : W16 :=
  (op ++ regBits rs ++ regBits rt ++ imm : BitVec (4 + 3 + 3 + 6))

/-- J-format of R86: `oooo aaaaaaaaaaaa`. -/
def encodeJ (op : BitVec 4) (addr : BitVec 12) : W16 :=
  (op ++ addr : BitVec (4 + 12))

/-- The canonical word of an instruction (R84 to R86, R90, R91); ignored bits are zero (R101,
decision D25 of the spec, log entry 19). -/
def encode : Instr → W16
  | .and rd rs rt => encodeR rs rt rd 0#3
  | .or rd rs rt => encodeR rs rt rd 1#3
  | .add rd rs rt => encodeR rs rt rd 2#3
  | .sub rd rs rt => encodeR rs rt rd 6#3
  | .slt rd rs rt => encodeR rs rt rd 7#3
  | .lw rt rs imm => encodeI 0x1#4 rs rt imm
  | .sw rt rs imm => encodeI 0x2#4 rs rt imm
  | .beq rs rt imm => encodeI 0x3#4 rs rt imm
  | .j addr => encodeJ 0x4#4 addr
  | .addi rt rs imm => encodeI 0x5#4 rs rt imm
  | .bne rs rt imm => encodeI 0x6#4 rs rt imm
  | .jr rs => encodeI 0x7#4 rs .r0 0#6
  | .jal addr => encodeJ 0x8#4 addr
  | .display => encodeJ 0xF#4 0#12
  | .halt => Config.haltWord

/-- The "mask" column of spec/opcode_table.json: the bits that the row fixes. -/
def tableMask : Instr → W16
  | .and _ _ _ => 0xF007
  | .or _ _ _ => 0xF007
  | .add _ _ _ => 0xF007
  | .sub _ _ _ => 0xF007
  | .slt _ _ _ => 0xF007
  | .lw _ _ _ => 0xF000
  | .sw _ _ _ => 0xF000
  | .beq _ _ _ => 0xF000
  | .j _ => 0xF000
  | .addi _ _ _ => 0xF000
  | .bne _ _ _ => 0xF000
  | .jr _ => 0xF000
  | .jal _ => 0xF000
  | .display => 0xF000
  | .halt => 0xFFFF

/-- The "match" column of spec/opcode_table.json: what the fixed bits of the row are. -/
def tableMatch : Instr → W16
  | .and _ _ _ => 0x0000
  | .or _ _ _ => 0x0001
  | .add _ _ _ => 0x0002
  | .sub _ _ _ => 0x0006
  | .slt _ _ _ => 0x0007
  | .lw _ _ _ => 0x1000
  | .sw _ _ _ => 0x2000
  | .beq _ _ _ => 0x3000
  | .j _ => 0x4000
  | .addi _ _ _ => 0x5000
  | .bne _ _ _ => 0x6000
  | .jr _ => 0x7000
  | .jal _ => 0x8000
  | .display => 0xF000
  | .halt => 0x0000

/-- The one instruction word whose low `nbits` bits are those of `w` and whose other bits are zero (every
instruction is one 16-bit word, R80, so no word follows it). -/
def tableWord (nbits w : Nat) : W16 :=
  BitVec.ofNat 16 (w % 2 ^ nbits)

/-- What the decoder reads from a word of spec/opcode_table.json, none where it rejects the word. -/
def decodeTableWord (nbits w : Nat) : Option Instr :=
  match decode (tableWord nbits w) with
  | .ok i => some i
  | .error _ => none

end Sys2Proof
end

