-- ==== Sys2Proof/Machine/State.lean ====
section
/-! DEFINITION. The whole state of the block (10_state.md R20 to R45), as plain data, the state after reset, and
the reasons a step can stop. -/

namespace Sys2Proof.Machine

/-- The general register file (R20): eight independent 16-bit registers. -/
structure Regs where
  x0 : W16
  x1 : W16
  x2 : W16
  x3 : W16
  x4 : W16
  x5 : W16
  x6 : W16
  x7 : W16
  deriving DecidableEq, Repr

/-- A memory of word cells: the listed cells, each an index and its word. It is in canonical form
(`Memory.wf` of Machine/Ops.lean) when the indexes rise strictly and no entry equals `Config.unlistedCell`.
A cell is one indivisible word and has no bytes (20_memory.md R52; log entry 1). -/
abbrev Memory := List (Nat × W16)

/-- The run state of R36. -/
inductive RunState where
  | idle
  | running
  | halted
  deriving DecidableEq, Repr

/-- The errors the error latch can hold (R37, 60_exceptions.md R240). -/
inductive EngineError where
  /-- An opcode field of 0x9 to 0xE was executed (60_exceptions.md R241). -/
  | invalidOpcode (op : BitVec 4)
  /-- A function code of 3, 4 or 5 was executed (60_exceptions.md R242). -/
  | invalidALUFunction (funct : BitVec 3)
  /-- A fetch with `pc` at 0x8000 or above (60_exceptions.md R243; decision D6 of the spec, log entry 6). -/
  | fetchOutOfRom (pc : W16)
  deriving DecidableEq, Repr

/-- A timestamp: a non-negative rational number of seconds, exact (45_throttle.md R180), `num / den` in lowest
terms, so that equal times are equal data. -/
structure Timestamp where
  num : Nat
  den : Nat
  den_pos : 0 < den
  reduced : Nat.gcd num den = 1
  deriving DecidableEq, Repr

/-- One pixel event `(x, y, r, g, b)` of R41: a column 0 to 127, a row 0 to 63, three eight-bit colours. -/
structure PixelEvent where
  x : Fin 128
  y : Fin 64
  r : BitVec 8
  g : BitVec 8
  b : BitVec 8
  deriving DecidableEq, Repr

/-- The state of R40, field by field. -/
structure State where
  /-- General registers `x[0]` to `x[7]` (R20 to R25). -/
  regs : Regs
  /-- Program counter, a word index into ROM (R26 to R29). -/
  pc : W16
  /-- Instruction memory, 32768 cells (R31). -/
  rom : Memory
  /-- Data RAM, 16384 cells (R32). -/
  ram : Memory
  /-- Screen buffer, 8192 cells (R33). -/
  screen : Memory
  /-- Keyboard register (R34). -/
  kbd : W16
  /-- DirtySet: screen offsets stored to since the last flush, oldest first, duplicates kept (R35). -/
  dirty : List Offset
  /-- Run state (R36). -/
  run : RunState
  /-- Error latch (R37). -/
  err : Option EngineError
  /-- Frequency register, instructions per second (R38). -/
  freq : Nat
  /-- Timing baseline of the throttle (R39). -/
  base : Option Timestamp
  /-- Output trace to the pixel sink: one record per flush (R41). -/
  sink : List (List PixelEvent)
  /-- Output trace to the observer: change notifications sent (R41). -/
  notify : Nat
  deriving DecidableEq, Repr

/-- Faults. There is none: every error the spec names is an error entry with a next state
(60_exceptions.md R244), and no data access raises anything (20_memory.md R59). -/
inductive Fault where
  deriving DecidableEq, Repr

/-- Refusals. -/
inductive Refusal where
  /-- Raised by a dispatch arm of an instruction without a meaning; no arm of this model raises it. Safe. -/
  | notModelled (mnemonic : String)
  deriving DecidableEq, Repr

/-- The register file after reset (R40): all zero, then register 6 at SP_INIT. -/
def Regs.reset : Regs where
  x0 := 0
  x1 := 0
  x2 := 0
  x3 := 0
  x4 := 0
  x5 := 0
  x6 := Config.spInit
  x7 := 0

/-- The state before the first host operation, the `power-on` column of R40, for a given FREQ_INIT
(70_reset_and_hazards.md R271; log entries 2, 3, 4). -/
def State.powerOn (freqInit : Nat) : State where
  regs := Regs.reset
  pc := Config.pcInit
  rom := []
  ram := []
  screen := []
  kbd := Config.kbdInit
  dirty := []
  run := .idle
  err := none
  freq := freqInit
  base := none
  sink := []
  notify := 0

/-- The machine right after reset: the power-on column of R40, with `Config.freqInit` (log entries 2, 3, 4).
The `reset` operation of the host on any later state is `resetOp` (Machine/HostInterface.lean). -/
def State.reset : State := State.powerOn Config.freqInit

end Sys2Proof.Machine
end

