-- ==== Sys2Proof/Machine/Ops.lean ====
section
/-! DEFINITION. The named operations over registers and memory: register access, the word memories and their
canonical form, the Memory Bus (20_memory.md R55 to R58), fetch (44_engine.md R153), the trailing increment (R156),
the halt transition (R154) and taking an error (60_exceptions.md R244). There is no return from an error: only the
host's reset clears the latch (R248), `resetOp` of Machine/HostInterface.lean. -/

namespace Sys2Proof.Machine

/-- `x[r]` of 00_scope.md R9. -/
def Regs.get (x : Regs) : Reg → W16
  | .r0 => x.x0
  | .r1 => x.x1
  | .r2 => x.x2
  | .r3 => x.x3
  | .r4 => x.x4
  | .r5 => x.x5
  | .r6 => x.x6
  | .r7 => x.x7

/-- `x[r] <- v` of 00_scope.md R9. No register is hardwired (10_state.md R21). -/
def Regs.set (x : Regs) (r : Reg) (v : W16) : Regs :=
  match r with
  | .r0 => { x with x0 := v }
  | .r1 => { x with x1 := v }
  | .r2 => { x with x2 := v }
  | .r3 => { x with x3 := v }
  | .r4 => { x with x4 := v }
  | .r5 => { x with x5 := v }
  | .r6 => { x with x6 := v }
  | .r7 => { x with x7 := v }

/-- Read general register `r` of a state. -/
def State.reg (s : State) (r : Reg) : W16 := s.regs.get r

/-- Write general register `r` of a state. -/
def State.setReg (s : State) (r : Reg) (v : W16) : State := { s with regs := s.regs.set r v }

/-- `pc <- t` of 00_scope.md R9. -/
def State.setPc (s : State) (t : W16) : State := { s with pc := t }

/-- The word of cell `a`. -/
def Memory.read : Memory → Nat → W16
  | [], _ => Config.unlistedCell
  | (k, v) :: m, a => if k = a then v else Memory.read m a

/-- The memory with cell `a` set to `v`, in canonical form if it was. -/
def Memory.write : Memory → Nat → W16 → Memory
  | [], a, v => if v = Config.unlistedCell then [] else [(a, v)]
  | (k, w) :: m, a, v =>
    if a < k then
      if v = Config.unlistedCell then (k, w) :: m else (a, v) :: (k, w) :: m
    else if a = k then
      if v = Config.unlistedCell then m else (a, v) :: m
    else (k, w) :: Memory.write m a v

/-- The listed indexes are at least `lo`, below `cap`, strictly rising, and no entry is an unlisted cell's word. -/
def Memory.wfFrom (cap : Nat) : Nat → Memory → Bool
  | _, [] => true
  | lo, (k, v) :: m =>
    decide (lo ≤ k) && decide (k < cap) && decide (v ≠ Config.unlistedCell) && Memory.wfFrom cap (k + 1) m

/-- The canonical form of a memory of `cap` cells. -/
def Memory.wf (cap : Nat) (m : Memory) : Bool := Memory.wfFrom cap 0 m

/-- The memory that holds `words` from cell `i` on and lists nothing else (47_host_interface.md R217: cells past
the supplied words are zero, decision D19 of the spec, log entry 7). -/
def Memory.ofWords : Nat → List W16 → Memory
  | _, [] => []
  | i, v :: vs =>
    if v = Config.unlistedCell then Memory.ofWords (i + 1) vs else (i, v) :: Memory.ofWords (i + 1) vs

/-- HOLE_READ of 20_memory.md R56: what a read of an unmapped data address returns, 0x0000.
UNVERIFIED: the rule states it, as decision D7 of the spec (log entry 5); unsafe. -/
def holeRead : W16 := 0x0000

/-- `MemRead(a, 16)` of 20_memory.md R56. It changes nothing. -/
def State.memRead (s : State) (a : W16) : W16 :=
  if a.toNat < Config.ramWords then s.ram.read a.toNat
  else if a.toNat < Config.screenBase + Config.screenWords then s.screen.read (a.toNat - Config.screenBase)
  else if a.toNat = Config.kbdAddr then s.kbd
  else holeRead

/-- `MemWrite(a, 16, v)` of 20_memory.md R57: a RAM store; a screen store that also appends the offset to the
DirtySet; the keyboard register and the hole drop the store. -/
def State.memWrite (s : State) (a v : W16) : State :=
  if a.toNat < Config.ramWords then { s with ram := s.ram.write a.toNat v }
  else if a.toNat < Config.screenBase + Config.screenWords then
    { s with
      screen := s.screen.write (a.toNat - Config.screenBase) v
      dirty := s.dirty ++ [BitVec.ofNat 13 (a.toNat - Config.screenBase)] }
  else s

/-- Instruction fetch (44_engine.md R153): `rom[u(pc)]`, or the error `FetchOutOfRom(pc)` where ROM has no such
cell (60_exceptions.md R243; decision D6 of the spec, log entry 6). -/
def State.fetch (s : State) : Except EngineError W16 :=
  if s.pc.toNat < Config.romWords then .ok (s.rom.read s.pc.toNat) else .error (.fetchOutOfRom s.pc)

/-- The trailing increment, the last thing every decoded instruction does (44_engine.md R156). -/
def State.advance (s : State) : State := { s with pc := s.pc + 1 }

/-- An instruction retires: its effect is `s`, and the trailing increment follows (44_engine.md R156). -/
def retire (s : State) : Host.Outcome State Fault Refusal := .next s.advance

/-- The halt transition (44_engine.md R154): only the run state changes, `pc` stays at the sentinel. -/
def State.halt (s : State) : State := { s with run := .halted }

/-- Taking an error (60_exceptions.md R244): the latch is set, the engine is Halted, nothing else changes; in
particular `pc` keeps the index of the faulting word. -/
def State.raiseError (s : State) (e : EngineError) : State := { s with err := some e, run := .halted }

/-- The error the engine raises for a word that the decoder rejects (60_exceptions.md R241, R242). -/
def errorOf : DecodeError → EngineError
  | .invalidOpcode op => .invalidOpcode op
  | .invalidALUFunction funct => .invalidALUFunction funct

end Sys2Proof.Machine
end

