-- ==== Sys2Proof/Machine/Flags.lean ====
section
/-! DEFINITION. The hardware has no flags, condition codes or predicate registers (10_state.md R30). What takes
their place are two comparisons, consumed inside the instruction: word equality (BEQ, BNE) and signed less-than
(SLT). Overflow, carry and borrow are recorded nowhere. -/

namespace Sys2Proof.Machine

/-- `==` of 00_scope.md R8: all sixteen bits compared. -/
def wordsEqual (a b : W16) : Bool := a == b

/-- `s(a) < s(b)` of 40_alu.md R114: the exact two's-complement values compared. -/
def signedLess (a b : W16) : Bool := decide (a.toInt < b.toInt)

/-- A comparison result as a word: 0x0001 or 0x0000 (40_alu.md R114). -/
def boolWord (c : Bool) : W16 := if c then 0x0001 else 0x0000

end Sys2Proof.Machine
end

