-- ==== Sys2Proof/Machine/Operands.lean ====
section
/-! DEFINITION. Every operand form of the ISA: the Sign Extension unit (30_encoding.md R88), the effective address
of LW and SW (20_memory.md R55), the branch sum (42_control_flow.md R130) and the page target of J and JAL (R132). -/

namespace Sys2Proof.Machine

/-- `s6(v)` of R88: the integer a 6-bit immediate stands for, -32 to 31. -/
def signed6 (v : BitVec 6) : Int :=
  if v.getLsbD 5 then (v.toNat : Int) - 64 else (v.toNat : Int)

/-- `sext_16(v)` of R88: bit 5 replicated ten times above the six bits. -/
def sext16 (v : BitVec 6) : W16 :=
  ((if v.getLsbD 5 then 0x3FF#10 else 0x000#10) ++ v : BitVec (10 + 6))

/-- `zext_16(v)` of 00_scope.md R9 for a 12-bit address field. -/
def zext16 (v : BitVec 12) : W16 :=
  (0x0#4 ++ v : BitVec (4 + 12))

/-- The effective address of LW and SW (20_memory.md R55), modulo 65536 (decision D4 of the spec, log entry 8). -/
def State.effectiveAddress (s : State) (rs : Reg) (imm : BitVec 6) : W16 := s.reg rs + sext16 imm

/-- The value a taken branch gives `pc` before the trailing increment (R130, R131). -/
def State.branchPc (s : State) (imm : BitVec 6) : W16 := s.pc + sext16 imm

/-- `(pc & 0xF000) | zext_16(addr)`: the target of J and JAL, in the page of the jump's own index (R132, R134). -/
def State.pageTarget (s : State) (addr : BitVec 12) : W16 := (s.pc &&& 0xF000) ||| zext16 addr

end Sys2Proof.Machine
end

