-- ==== Sys2Proof/Machine/Alu.lean ====
section
/-! DEFINITION. The ALU (40_alu.md R115), the engine's use of it (R116) and the five ALU-group instructions
(R110 to R114). -/

namespace Sys2Proof.Machine

/-- `ALU(funct, a, b)` of R115: a pure function of a function code and two words, complete for all eight codes;
codes 3, 4 and 5 are the error (R118). -/
def alu (funct : BitVec 3) (a b : W16) : Except EngineError W16 :=
  match funct.toNat with
  | 0 => .ok (a &&& b)
  | 1 => .ok (a ||| b)
  | 2 => .ok (a + b)
  | 6 => .ok (a - b)
  | 7 => .ok (boolWord (signedLess a b))
  | _ => .error (.invalidALUFunction funct)

/-- The engine's use of the ALU (R116): both operands are read before the result is written, the increment ends
the instruction, and an ALU error is taken with nothing written. -/
def aluGroup (funct : BitVec 3) (rd rs rt : Reg) (s : State) : Host.Outcome State Fault Refusal :=
  match alu funct (s.reg rs) (s.reg rt) with
  | .ok r => retire (s.setReg rd r)
  | .error e => .next (s.raiseError e)

/-- AND (R110). -/
def execAnd (rd rs rt : Reg) (s : State) : Host.Outcome State Fault Refusal := aluGroup 0#3 rd rs rt s

/-- OR (R111). -/
def execOr (rd rs rt : Reg) (s : State) : Host.Outcome State Fault Refusal := aluGroup 1#3 rd rs rt s

/-- ADD (R112). -/
def execAdd (rd rs rt : Reg) (s : State) : Host.Outcome State Fault Refusal := aluGroup 2#3 rd rs rt s

/-- SUB (R113): `x[rs]` minus `x[rt]`. -/
def execSub (rd rs rt : Reg) (s : State) : Host.Outcome State Fault Refusal := aluGroup 6#3 rd rs rt s

/-- SLT (R114). -/
def execSlt (rd rs rt : Reg) (s : State) : Host.Outcome State Fault Refusal := aluGroup 7#3 rd rs rt s

end Sys2Proof.Machine
end

