-- ==== Sys2Proof/Machine/ControlFlow.lean ====
section
/-! DEFINITION. BEQ, BNE, J, JR and JAL (42_control_flow.md R130 to R134). Each writes `pc` and is then followed by
the trailing increment; J and JAL pre-decrement so that they land on the literal target, JR and the branches do not. -/

namespace Sys2Proof.Machine

/-- The shared effect of BEQ and BNE: the branch sum when the condition holds, else nothing. -/
def branchIf (c : Bool) (imm : BitVec 6) (s : State) : State := if c then s.setPc (s.branchPc imm) else s

/-- BEQ (R130). -/
def execBeq (rs rt : Reg) (imm : BitVec 6) (s : State) : Host.Outcome State Fault Refusal :=
  retire (branchIf (wordsEqual (s.reg rs) (s.reg rt)) imm s)

/-- BNE (R131). -/
def execBne (rs rt : Reg) (imm : BitVec 6) (s : State) : Host.Outcome State Fault Refusal :=
  retire (branchIf (!wordsEqual (s.reg rs) (s.reg rt)) imm s)

/-- J (R132): the target, then `pc <- pc - 1`, before the trailing increment. -/
def execJ (addr : BitVec 12) (s : State) : Host.Outcome State Fault Refusal :=
  retire (s.setPc (s.pageTarget addr - 1))

/-- JR (R133): no pre-decrement, so it lands one past the register. -/
def execJr (rs : Reg) (s : State) : Host.Outcome State Fault Refusal :=
  retire (s.setPc (s.reg rs))

/-- JAL (R134): register 7 gets the index of the JAL word itself, before `pc` changes. -/
def execJal (addr : BitVec 12) (s : State) : Host.Outcome State Fault Refusal :=
  retire ((s.setReg .r7 s.pc).setPc (s.pageTarget addr - 1))

end Sys2Proof.Machine
end

