-- ==== Sys2Proof/Machine/Display.lean ====
section
/-! DEFINITION. The Display Differ: the 16-bit-to-RGB converter (46_display_differ.md R202), the coordinates (R204),
the flush (R203), and what a sink that paints the events in order shows (R210). -/

namespace Sys2Proof.Machine

/-- Red of R202: bits 15..11 times 8. -/
def redOf (w : W16) : BitVec 8 := (w.extractLsb' 11 5 ++ 0#3 : BitVec (5 + 3))

/-- Green of R202: bits 10..5 times 4. -/
def greenOf (w : W16) : BitVec 8 := (w.extractLsb' 5 6 ++ 0#2 : BitVec (6 + 2))

/-- Blue of R202: bits 4..0 times 8. -/
def blueOf (w : W16) : BitVec 8 := (w.extractLsb' 0 5 ++ 0#3 : BitVec (5 + 3))

/-- The column of a screen offset, `o mod 128` (R204). -/
def columnOf (o : Offset) : Fin 128 := ⟨o.toNat % 128, Nat.mod_lt _ (by decide)⟩

/-- The row of a screen offset, `o div 128` (R204). -/
def rowOf (o : Offset) : Fin 64 := ⟨o.toNat / 128, by have := o.isLt; omega⟩

/-- The pixel event of one DirtySet entry, with the colour the screen cell has now (R203, R206). -/
def pixelEvent (screen : Memory) (o : Offset) : PixelEvent where
  x := columnOf o
  y := rowOf o
  r := redOf (screen.read o.toNat)
  g := greenOf (screen.read o.toNat)
  b := blueOf (screen.read o.toNat)

/-- `Flush()` of R203: one record with one event per DirtySet entry, in order, duplicates kept; then the DirtySet
is empty. An empty DirtySet appends an empty record (R208). -/
def State.flush (s : State) : State :=
  { s with sink := s.sink ++ [s.dirty.map (pixelEvent s.screen)], dirty := [] }

/-- The colour a sink that paints each event in order shows at `(x, y)` (R210), none where it painted nothing:
the last event for the pixel wins (R205). -/
def paintedAt (events : List PixelEvent) (x : Fin 128) (y : Fin 64) : Option (BitVec 8 × BitVec 8 × BitVec 8) :=
  match events with
  | [] => none
  | e :: es =>
    match paintedAt es x y with
    | some c => some c
    | none => if e.x = x ∧ e.y = y then some (e.r, e.g, e.b) else none

end Sys2Proof.Machine
end

