-- ==== Sys2Proof/Machine/DisplayHalt.lean ====
section
/-! DEFINITION. DISPLAY and the halt sentinel (43_display_halt.md R140, R141). -/

namespace Sys2Proof.Machine

/-- DISPLAY (R140): the flush, at this instruction, in program order. -/
def execDisplay (s : State) : Host.Outcome State Fault Refusal := retire s.flush

/-- HALT (R141): only the run state changes; `pc` is not incremented (decision D8 of the spec, log entry 9). -/
def execHalt (s : State) : Host.Outcome State Fault Refusal := .next s.halt

end Sys2Proof.Machine
end

