-- ==== Sys2Proof/Machine/ImmediateMemory.lean ====
section
/-! DEFINITION. ADDI, LW and SW (41_immediate_memory.md R120 to R122). -/

namespace Sys2Proof.Machine

/-- ADDI (R120). -/
def execAddi (rt rs : Reg) (imm : BitVec 6) (s : State) : Host.Outcome State Fault Refusal :=
  retire (s.setReg rt (s.reg rs + sext16 imm))

/-- LW (R121): no address raises anything (20_memory.md R59). -/
def execLw (rt rs : Reg) (imm : BitVec 6) (s : State) : Host.Outcome State Fault Refusal :=
  retire (s.setReg rt (s.memRead (s.effectiveAddress rs imm)))

/-- SW (R122): `x[rt]` goes to the Memory Bus; a dropped store retires as well. -/
def execSw (rt rs : Reg) (imm : BitVec 6) (s : State) : Host.Outcome State Fault Refusal :=
  retire (s.memWrite (s.effectiveAddress rs imm) (s.reg rt))

end Sys2Proof.Machine
end

