-- ==== Sys2Proof/Machine/Dispatch.lean ====
section
/-! DEFINITION. The dispatch of 44_engine.md R155: one arm per constructor of Instr. -/

namespace Sys2Proof.Machine

def exec (i : Instr) (s : State) : Host.Outcome State Fault Refusal :=
  match i with
  -- the ALU group
  | .and rd rs rt => Sys2Proof.Machine.execAnd rd rs rt s
  | .or rd rs rt => Sys2Proof.Machine.execOr rd rs rt s
  | .add rd rs rt => Sys2Proof.Machine.execAdd rd rs rt s
  | .sub rd rs rt => Sys2Proof.Machine.execSub rd rs rt s
  | .slt rd rs rt => Sys2Proof.Machine.execSlt rd rs rt s
  -- memory, control flow, immediate
  | .lw rt rs imm => Sys2Proof.Machine.execLw rt rs imm s
  | .sw rt rs imm => Sys2Proof.Machine.execSw rt rs imm s
  | .beq rs rt imm => Sys2Proof.Machine.execBeq rs rt imm s
  | .j addr => Sys2Proof.Machine.execJ addr s
  | .addi rt rs imm => Sys2Proof.Machine.execAddi rt rs imm s
  | .bne rs rt imm => Sys2Proof.Machine.execBne rs rt imm s
  | .jr rs => Sys2Proof.Machine.execJr rs s
  | .jal addr => Sys2Proof.Machine.execJal addr s
  -- display and the halt sentinel
  | .display => Sys2Proof.Machine.execDisplay s
  | .halt => Sys2Proof.Machine.execHalt s

end Sys2Proof.Machine
end

