-- ==== Sys2Proof/Machine/Engine.lean ====
section
/-! DEFINITION. The Execution Engine: one `ExecOne` (44_engine.md R152) and its outcome. -/

namespace Sys2Proof.Machine

/-- What the tests of one `ExecOne` select, in the order of 60_exceptions.md R247. -/
inductive Selection where
  /-- The error latch is set: nothing executes (44_engine.md R159). -/
  | blocked
  /-- The fetch or the dispatch raises an error (60_exceptions.md R244). -/
  | raises (e : EngineError)
  /-- The decoded instruction, or the halt sentinel, takes effect. -/
  | runs (i : Instr)
  deriving DecidableEq, Repr

/-- The outcomes of R152. -/
inductive ExecOutcome where
  | retired
  | halt
  | fault
  | blocked
  deriving DecidableEq, Repr

/-- The tests of `ExecOne` in their fixed order (R152, 60_exceptions.md R247): the latch, the fetch guard, the
halt check, the opcode, the function code. -/
def State.select (s : State) : Selection :=
  match s.err with
  | some _ => .blocked
  | none =>
    match s.fetch with
    | .error e => .raises e
    | .ok w =>
      match decode w with
      | .error d => .raises (errorOf d)
      | .ok i => .runs i

/-- The next state of one `ExecOne` (R152). -/
def execOne (s : State) : Host.Outcome State Fault Refusal :=
  match s.select with
  | .blocked => .next s
  | .raises e => .next (s.raiseError e)
  | .runs i => exec i s

/-- The outcome of the `ExecOne` that `s` is about to do (R152); only the batch loop uses it (R157). -/
def State.execOutcome (s : State) : ExecOutcome :=
  match s.select with
  | .blocked => .blocked
  | .raises _ => .fault
  | .runs .halt => .halt
  | .runs _ => .retired

/-- The state whose next fetch is `w`: `w` in the ROM cell that `pc` indexes, where `pc` is PC_INIT if it was
outside ROM, and no error latched (log entry 10). -/
def State.placeFetchWord (s : State) (w : W16) : State :=
  let p := if s.pc.toNat < Config.romWords then s.pc else Config.pcInit
  { s with pc := p, rom := s.rom.write p.toNat w, err := none }

end Sys2Proof.Machine
end

