-- ==== Sys2Proof/Machine/Step.lean ====
section
/-! DEFINITION. The step of the machine: the engine's step, one `ExecOne` (00_scope.md R10, 44_engine.md R152). The
host's operations, each a transition of the same state, are in Machine/HostInterface.lean (log entry 11). -/

namespace Sys2Proof.Machine

/-- One engine step. -/
def step (s : State) : Host.Outcome State Fault Refusal := execOne s

/-- `s` with the word of spec/opcode_table.json stored where `step` fetches its next instruction. -/
def State.withFetchWord (s : State) (nbits w : Nat) : State := s.placeFetchWord (tableWord nbits w)

end Sys2Proof.Machine
end

