-- ==== Sys2Proof/Machine/Throttle.lean ====
section
/-! DEFINITION. Batches (44_engine.md R157) and the Throttle Scheduler (45_throttle.md R180 to R188). -/

namespace Sys2Proof.Machine

/-- The time a timestamp stands for, in seconds (45_throttle.md R180). -/
def Timestamp.seconds (t : Timestamp) : Rat := (t.num : Rat) / (t.den : Rat)

/-- The budget of R182, `floor(freq * (now - t0))`, exact: the difference of the two fractions over their common
denominator, times the frequency, and the integer division by a positive number, which rounds down. It is
negative when `now` lies before `t0` and the frequency is not 0 (R187). -/
def budget (freq : Nat) (t0 now : Timestamp) : Int :=
  ((freq : Int) * ((now.num : Int) * (t0.den : Int) - (t0.num : Int) * (now.den : Int))) /
    ((now.den : Int) * (t0.den : Int))

/-- `RunBatch(n)` of R157: `n` instructions, ended at once by a halt, an error or a latched error; the unused part
of the budget is discarded (R158). -/
def runBatch : Nat → State → Host.Outcome State Fault Refusal
  | 0, s => .next s
  | n + 1, s =>
    match step s with
    | .next t => if s.execOutcome = .retired then runBatch n t else .next t
    | .fault f => .fault f
    | .refused r => .refused r

/-- One change notification (47_host_interface.md R228). -/
def State.notified (s : State) : State := { s with notify := s.notify + 1 }

/-- An outcome with one change notification after it. -/
def thenNotify (o : Host.Outcome State Fault Refusal) : Host.Outcome State Fault Refusal :=
  match o with
  | .next s => .next s.notified
  | .fault f => .fault f
  | .refused r => .refused r

/-- `tick(now)` of R183: the run check (R184), the baseline tick (R185), the zero or negative budget (R186, R187),
and the batch with its baseline update (R188), one notification after it. -/
def tickOp (now : Timestamp) (s : State) : Host.Outcome State Fault Refusal :=
  if s.err ≠ none ∨ s.run ≠ .running then .next s
  else
    match s.base with
    | none => .next { s with base := some now }
    | some t0 =>
      if budget s.freq t0 now ≤ 0 then .next s
      else thenNotify (runBatch (budget s.freq t0 now).toNat { s with base := some now })

end Sys2Proof.Machine
end

