-- ==== Sys2Proof/Machine/HostInterface.lean ====
section
/-! DEFINITION. The host interface (47_host_interface.md R215 to R232): every operation the host may issue, each one
indivisible transition of the state (00_scope.md R11), and what the host reads back. -/

namespace Sys2Proof.Machine

/-- The two memories that `load` and `setCell` reach (R217, R220, R222). -/
inductive Region where
  | rom
  | ram
  deriving DecidableEq, Repr

/-- The host operations of R215; the list is complete. -/
inductive HostOp where
  | load (region : Region) (words : List W16)
  | setCell (region : Region) (index : Nat) (value : W16)
  | setKeyboardValue (code : W16)
  | tick (now : Timestamp)
  | step
  | start
  | stop
  | reset
  | setFrequency (hz : Nat)
  deriving DecidableEq, Repr

/-- What an operation reports to its caller: nothing, or the failure of `load` (R218). -/
inductive HostReply where
  | done
  | imageTooLarge
  deriving DecidableEq, Repr

/-- The capacity of a region in words (00_scope.md R5). -/
def capacity : Region → Nat
  | .rom => Config.romWords
  | .ram => Config.ramWords

/-- The contents of a region. -/
def State.region (s : State) : Region → Memory
  | .rom => s.rom
  | .ram => s.ram

/-- The state with the contents of a region replaced. -/
def State.setRegion (s : State) (region : Region) (m : Memory) : State :=
  match region with
  | .rom => { s with rom := m }
  | .ram => { s with ram := m }

/-- `load(region, words)` (R217): the whole image is replaced, zero filled (decision D19 of the spec, log entry 7);
an image past the capacity leaves everything as it was (R218). -/
def loadOp (region : Region) (words : List W16) (s : State) : State :=
  if words.length ≤ capacity region then (s.setRegion region (Memory.ofWords 0 words)).notified else s

/-- `setCell(region, index, value)` (R220): out of bounds nothing happens. -/
def setCellOp (region : Region) (index : Nat) (value : W16) (s : State) : State :=
  if index < capacity region then (s.setRegion region ((s.region region).write index value)).notified else s

/-- `setKeyboardValue(code)` (R227). -/
def setKeyboardOp (code : W16) (s : State) : State := { s with kbd := code }

/-- `step()` (R224): one `ExecOne` whatever the run state, and one notification; nothing while an error is
latched. -/
def stepOp (s : State) : Host.Outcome State Fault Refusal :=
  if s.err ≠ none then .next s else thenNotify (step s)

/-- `start()` (R225). -/
def startOp (s : State) : State :=
  if s.err = none ∧ s.run ≠ .running then { s with run := .running, base := none } else s

/-- `stop()` (R226). -/
def stopOp (s : State) : State :=
  if s.run = .running then { s with run := .idle } else s

/-- `reset()` (R223): the `reset` column of 10_state.md R40. ROM, screen, keyboard register, DirtySet, frequency
and the pixel trace are kept (decision D12 of the spec, log entry 2). -/
def resetOp (s : State) : State :=
  { s with
    regs := Regs.reset
    pc := Config.pcInit
    ram := []
    run := .idle
    err := none
    base := none
    notify := s.notify + 1 }

/-- `setFrequency(hz)` (45_throttle.md R181): stored as given, no validation. -/
def setFrequencyOp (hz : Nat) (s : State) : State := { s with freq := hz }

/-- One host operation (R215, 00_scope.md R10). -/
def hostStep (op : HostOp) (s : State) : Host.Outcome State Fault Refusal :=
  match op with
  | .load region words => .next (loadOp region words s)
  | .setCell region index value => .next (setCellOp region index value s)
  | .setKeyboardValue code => .next (setKeyboardOp code s)
  | .tick now => tickOp now s
  | .step => stepOp s
  | .start => .next (startOp s)
  | .stop => .next (stopOp s)
  | .reset => .next (resetOp s)
  | .setFrequency hz => .next (setFrequencyOp hz s)

/-- What the operation reports: `ImageTooLarge` from a load past the capacity, else nothing (R218). -/
def hostReply : HostOp → HostReply
  | .load region words => if words.length ≤ capacity region then .done else .imageTooLarge
  | .setCell _ _ _ => .done
  | .setKeyboardValue _ => .done
  | .tick _ => .done
  | .step => .done
  | .start => .done
  | .stop => .done
  | .reset => .done
  | .setFrequency _ => .done

/-- A sequence of host operations, one at a time (R216). -/
def hostRun : List HostOp → State → Host.Outcome State Fault Refusal
  | [], s => .next s
  | op :: ops, s =>
    match hostStep op s with
    | .next t => hostRun ops t
    | .fault f => .fault f
    | .refused r => .refused r

/-- What the host may read between operations (R229). -/
structure Snapshot where
  regs : Regs
  pc : W16
  rom : Memory
  ram : Memory
  screen : Memory
  kbd : W16
  run : RunState
  err : Option EngineError
  deriving DecidableEq, Repr

/-- The snapshot of a state; reading changes nothing (R229). -/
def State.snapshot (s : State) : Snapshot where
  regs := s.regs
  pc := s.pc
  rom := s.rom
  ram := s.ram
  screen := s.screen
  kbd := s.kbd
  run := s.run
  err := s.err

end Sys2Proof.Machine
end

