-- ==== Sys2Proof/Safety.lean ====
section
/-! DEFINITION. What claims say of states and runs: the invariant of the machine, how a run has ended
(44_engine.md R160), and the frame relations that name what an instruction leaves alone. -/

namespace Sys2Proof.Machine

/-- The invariant of the machine: the three memories are in canonical form and hold no cell that does not exist
(10_state.md R31 to R33), and a latched error goes with a Halted engine (44_engine.md R160). -/
structure Inv (s : State) : Prop where
  rom : s.rom.wf Config.romWords = true
  ram : s.ram.wf Config.ramWords = true
  screen : s.screen.wf Config.screenWords = true
  latch : s.err ≠ none → s.run = .halted

/-- A colour event the converter can make (46_display_differ.md R202): red and blue are multiples of 8, green of 4. -/
def ConvertedColour (e : PixelEvent) : Prop :=
  e.r.toNat % 8 = 0 ∧ e.g.toNat % 4 = 0 ∧ e.b.toNat % 8 = 0

/-- Every event of the pixel trace carries a colour the converter can make. -/
def SinkConverted (s : State) : Prop := ∀ record ∈ s.sink, ∀ e ∈ record, ConvertedColour e

/-- A run has ended normally (44_engine.md R160). -/
def EndedNormally (s : State) : Prop := s.run = .halted ∧ s.err = none

/-- A run has ended in error (44_engine.md R160). -/
def EndedInError (s : State) : Prop := s.err ≠ none

/-- The states a sequence of host operations leads to from `s`. -/
def Reaches (s t : State) : Prop := ∃ ops, hostRun ops s = .next t

/-- A safe run: no sequence of host operations leads to a latched error. -/
def SafeFrom (s : State) : Prop := ∀ t, Reaches s t → ¬EndedInError t

/-- Frame: every register but `r` holds in `t` what it held in `s`. -/
def SameRegsBut (r : Reg) (s t : State) : Prop := ∀ q, q ≠ r → t.reg q = s.reg q

/-- Frame: every register holds in `t` what it held in `s`. -/
def SameRegs (s t : State) : Prop := ∀ q, t.reg q = s.reg q

/-- Frame: every data address reads in `t` as in `s`, and so does every cell of RAM and screen. -/
structure SameData (s t : State) : Prop where
  bus : ∀ a, t.memRead a = s.memRead a
  ram : ∀ a, t.ram.read a = s.ram.read a
  screen : ∀ a, t.screen.read a = s.screen.read a

/-- Frame: DirtySet and pixel trace are the same. -/
structure SameTracker (s t : State) : Prop where
  dirty : t.dirty = s.dirty
  sink : t.sink = s.sink

/-- Frame: every other piece of state is the same: ROM, keyboard register, run state, error latch, frequency,
baseline, notifications. -/
structure SameControl (s t : State) : Prop where
  rom : t.rom = s.rom
  kbd : t.kbd = s.kbd
  run : t.run = s.run
  err : t.err = s.err
  freq : t.freq = s.freq
  base : t.base = s.base
  notify : t.notify = s.notify

end Sys2Proof.Machine
end

