-- ==== Sys2Proof/Certificates/Slice0/Obligations.lean ====
section
/-! DEFINITION. The statements for the provers. Each docstring names the rule of spec/ it formalises. Where a clause
rests on a decision of the spec (92_eei_decisions.md) or on a choice of this model, the docstring says so and names
the log entry. -/

open Sys2Proof Sys2Proof.Machine

/-! ### Encoding -/

/-- 30_encoding.md R81: every field is the bit range the rule gives, as an unsigned number of its width; and, R83,
the fields overlap. -/
def Obligations.DecoderFieldsAreBitRanges : Prop :=
  ∀ w : W16,
    ((decodeFields w).op.toNat = w.toNat / 4096 ∧
      (decodeFields w).rs.toNat = w.toNat / 512 % 8 ∧
      (decodeFields w).rt.toNat = w.toNat / 64 % 8 ∧
      (decodeFields w).rd.toNat = w.toNat / 8 % 8 ∧
      (decodeFields w).funct.toNat = w.toNat % 8 ∧
      (decodeFields w).imm.toNat = w.toNat % 64 ∧
      (decodeFields w).addr.toNat = w.toNat % 4096) ∧
    (decodeFields w).imm.toNat = (decodeFields w).rd.toNat * 8 + (decodeFields w).funct.toNat ∧
    (decodeFields w).addr.toNat =
      (decodeFields w).rs.toNat * 512 + (decodeFields w).rt.toNat * 64 + (decodeFields w).imm.toNat

/-- Words written out bit by bit from 30_encoding.md R84 to R86 and R90 to R94 (fields op, then rs, rt, rd, funct or
imm or addr) decode to what they stand for. In the two rejection clauses, that the rejection carries the field is
decision D10 of the spec (log entry 6), and that `decode` itself rejects, where the spec's decoder accepts every word
(R82) and the engine judges it, is this model's DESIGN CHOICE (log entry 18). A sanity statement. -/
def Obligations.WrittenOutWordsDecode : Prop :=
  decode 0b0000_001_010_011_110#16 = .ok (.sub .r3 .r1 .r2) ∧
  decode 0b0001_001_010_000010#16 = .ok (.lw .r2 .r1 2) ∧
  decode 0b0010_000_011_000000#16 = .ok (.sw .r3 .r0 0) ∧
  decode 0b0110_001_000_111101#16 = .ok (.bne .r1 .r0 61) ∧
  decode 0b1000_000000000101#16 = .ok (.jal 5) ∧
  decode 0b0111_111_111111111#16 = .ok (.jr .r7) ∧
  decode 0b0000_000_000_000_000#16 = .ok .halt ∧
  decode 0b0000_000_000_001_000#16 = .ok (.and .r1 .r0 .r0) ∧
  decode 0b1001_101_010_111100#16 = .error (.invalidOpcode 9) ∧
  decode 0b0000_000_000_000_100#16 = .error (.invalidALUFunction 4)

/-- Decode and encode agree on every well-formed instruction, with every operand at every value (30_encoding.md R84
to R86, R90, R91, R94, R101): no bit of an encoding is dropped. -/
def Obligations.DecodeOfEncode : Prop :=
  ∀ i : Instr, WellFormed i → decode (encode i) = .ok i

/-- The other direction: what `decode` accepts is well-formed, and the canonical word of it is the word itself,
except that JR and DISPLAY have their ignored bits cleared (30_encoding.md R95, R101). That there are words `decode`
does not accept is this model's DESIGN CHOICE: it joins the spec's decoder, which accepts every word (R82), with the
engine's dispatch (log entry 18). That ignored bits are encoded as zero is decision D25 of the spec (log entry 19). -/
def Obligations.EncodeOfDecode : Prop :=
  ∀ (w : W16) (i : Instr), decode w = .ok i →
    WellFormed i ∧
    (encode i).toNat =
      (match i with
        | .jr _ => w.toNat / 512 * 512
        | .display => 0xF000
        | _ => w.toNat)

/-- `decode` rejects the words that 30_encoding.md R92 and R93 call illegal to execute, each with the field its error
carries, and no other word (R2: the list is closed). The spec's decoder accepts every word (R82) and the engine judges
it: that `decode` joins the two is this model's DESIGN CHOICE (log entry 18). That the error carries the field is
decision D10 of the spec (log entry 6). -/
def Obligations.RejectedWordsAreTheIllegalOnes : Prop :=
  ∀ w : W16,
    (∀ op, decode w = .error (.invalidOpcode op) ↔
      0x9000 ≤ w.toNat ∧ w.toNat ≤ 0xEFFF ∧ op.toNat = w.toNat / 4096) ∧
    (∀ funct, decode w = .error (.invalidALUFunction funct) ↔
      w.toNat < 0x1000 ∧ (w.toNat % 8 = 3 ∨ w.toNat % 8 = 4 ∨ w.toNat % 8 = 5) ∧ funct.toNat = w.toNat % 8)

/-! ### The instructions: encoding, completion, result and frame -/

/-- 40_alu.md R110: AND. The word 0x0000 is excluded from the pattern. The clauses about `exec` have no premise, so
they also speak of the term `AND R0, R0, R0`, which R110 calls not executable: that `exec` gives it the effect of AND is
this model's DESIGN CHOICE (log entry 16). -/
def Obligations.AndRunsWithFrame : Prop :=
  ∀ (rd rs rt : Reg) (s : State),
    (¬(rd = .r0 ∧ rs = .r0 ∧ rt = .r0) →
      decode (0b0000#4 ++ regBits rs ++ regBits rt ++ regBits rd ++ 0b000#3) = .ok (.and rd rs rt)) ∧
    ∃ t, exec (.and rd rs rt) s = .next t ∧
      (∀ k < 16, (t.reg rd).getLsbD k = ((s.reg rs).getLsbD k && (s.reg rt).getLsbD k)) ∧
      t.pc = s.pc + 1 ∧ SameRegsBut rd s t ∧ SameData s t ∧ SameTracker s t ∧ SameControl s t

/-- 40_alu.md R111: OR. -/
def Obligations.OrRunsWithFrame : Prop :=
  ∀ (rd rs rt : Reg) (s : State),
    decode (0b0000#4 ++ regBits rs ++ regBits rt ++ regBits rd ++ 0b001#3) = .ok (.or rd rs rt) ∧
    ∃ t, exec (.or rd rs rt) s = .next t ∧
      (∀ k < 16, (t.reg rd).getLsbD k = ((s.reg rs).getLsbD k || (s.reg rt).getLsbD k)) ∧
      t.pc = s.pc + 1 ∧ SameRegsBut rd s t ∧ SameData s t ∧ SameTracker s t ∧ SameControl s t

/-- 40_alu.md R112: ADD wraps modulo 65536 and records nothing else. -/
def Obligations.AddRunsWithFrame : Prop :=
  ∀ (rd rs rt : Reg) (s : State),
    decode (0b0000#4 ++ regBits rs ++ regBits rt ++ regBits rd ++ 0b010#3) = .ok (.add rd rs rt) ∧
    ∃ t, exec (.add rd rs rt) s = .next t ∧
      (t.reg rd).toNat = ((s.reg rs).toNat + (s.reg rt).toNat) % 65536 ∧
      t.pc = s.pc + 1 ∧ SameRegsBut rd s t ∧ SameData s t ∧ SameTracker s t ∧ SameControl s t

/-- 40_alu.md R113: SUB, `x[rs]` minus `x[rt]`, wraps modulo 65536. -/
def Obligations.SubRunsWithFrame : Prop :=
  ∀ (rd rs rt : Reg) (s : State),
    decode (0b0000#4 ++ regBits rs ++ regBits rt ++ regBits rd ++ 0b110#3) = .ok (.sub rd rs rt) ∧
    ∃ t, exec (.sub rd rs rt) s = .next t ∧
      ((t.reg rd).toNat : Int) = (((s.reg rs).toNat : Int) - ((s.reg rt).toNat : Int)) % 65536 ∧
      t.pc = s.pc + 1 ∧ SameRegsBut rd s t ∧ SameData s t ∧ SameTracker s t ∧ SameControl s t

/-- 40_alu.md R114: SLT compares the two's-complement readings of 00_scope.md R8 exactly and writes all sixteen bits. -/
def Obligations.SltRunsWithFrame : Prop :=
  ∀ (rd rs rt : Reg) (s : State),
    decode (0b0000#4 ++ regBits rs ++ regBits rt ++ regBits rd ++ 0b111#3) = .ok (.slt rd rs rt) ∧
    ∃ t, exec (.slt rd rs rt) s = .next t ∧
      t.reg rd =
        (if (if (s.reg rs).getLsbD 15 then ((s.reg rs).toNat : Int) - 65536 else ((s.reg rs).toNat : Int)) <
            (if (s.reg rt).getLsbD 15 then ((s.reg rt).toNat : Int) - 65536 else ((s.reg rt).toNat : Int))
          then 0x0001#16 else 0x0000#16) ∧
      t.pc = s.pc + 1 ∧ SameRegsBut rd s t ∧ SameData s t ∧ SameTracker s t ∧ SameControl s t

/-- 41_immediate_memory.md R120: ADDI adds the immediate, as the integer 30_encoding.md R88 reads from its six bits
(`v - 64` when bit 5 is set), modulo 65536. -/
def Obligations.AddiRunsWithFrame : Prop :=
  ∀ (rt rs : Reg) (imm : BitVec 6) (s : State),
    decode (0b0101#4 ++ regBits rs ++ regBits rt ++ imm) = .ok (.addi rt rs imm) ∧
    ∃ t, exec (.addi rt rs imm) s = .next t ∧
      ((t.reg rt).toNat : Int) =
        (((s.reg rs).toNat : Int) + (if imm.toNat < 32 then (imm.toNat : Int) else (imm.toNat : Int) - 64)) % 65536 ∧
      t.pc = s.pc + 1 ∧ SameRegsBut rt s t ∧ SameData s t ∧ SameTracker s t ∧ SameControl s t

/-- 41_immediate_memory.md R121: LW. The address wraps modulo 65536 (20_memory.md R55, decision D4 of the spec, log
entry 8); a hole reads 0x0000 (R56, decision D7 of the spec, log entry 5). -/
def Obligations.LwRunsWithFrame : Prop :=
  ∀ (rt rs : Reg) (imm : BitVec 6) (s : State),
    decode (0b0001#4 ++ regBits rs ++ regBits rt ++ imm) = .ok (.lw rt rs imm) ∧
    ∃ t, exec (.lw rt rs imm) s = .next t ∧
      (∀ a : Nat,
        (a : Int) =
          (((s.reg rs).toNat : Int) + (if imm.toNat < 32 then (imm.toNat : Int) else (imm.toNat : Int) - 64)) % 65536 →
        t.reg rt =
          (if a < 0x4000 then s.ram.read a
            else if a < 0x6000 then s.screen.read (a - 0x4000)
            else if a = 0x6000 then s.kbd
            else 0x0000)) ∧
      t.pc = s.pc + 1 ∧ SameRegsBut rt s t ∧ SameData s t ∧ SameTracker s t ∧ SameControl s t

/-- 41_immediate_memory.md R122: SW. The address stored to is the meaning's own `effectiveAddress`, whose value is
the sum modulo 65536 (20_memory.md R55, decision D4 of the spec, log entry 8). Every data address but that one reads
as before, for every form; the stored word is read back under the invariant that memories are canonical
(`Inv`, which `StepKeepsInvariant` keeps). Stores to the keyboard register and the hole are dropped (R57). -/
def Obligations.SwRunsWithFrame : Prop :=
  ∀ (rt rs : Reg) (imm : BitVec 6) (s : State),
    decode (0b0010#4 ++ regBits rs ++ regBits rt ++ imm) = .ok (.sw rt rs imm) ∧
    ((s.effectiveAddress rs imm).toNat : Int) =
      (((s.reg rs).toNat : Int) + (if imm.toNat < 32 then (imm.toNat : Int) else (imm.toNat : Int) - 64)) % 65536 ∧
    ∃ t, exec (.sw rt rs imm) s = .next t ∧
      (∀ a : W16, a ≠ s.effectiveAddress rs imm → t.memRead a = s.memRead a) ∧
      ((s.effectiveAddress rs imm).toNat < 0x4000 →
        (Inv s → t.ram.read (s.effectiveAddress rs imm).toNat = s.reg rt) ∧
        (∀ a, a ≠ (s.effectiveAddress rs imm).toNat → t.ram.read a = s.ram.read a) ∧
        t.screen = s.screen ∧ t.dirty = s.dirty) ∧
      (0x4000 ≤ (s.effectiveAddress rs imm).toNat → (s.effectiveAddress rs imm).toNat < 0x6000 →
        (Inv s → t.screen.read ((s.effectiveAddress rs imm).toNat - 0x4000) = s.reg rt) ∧
        (∀ a, a ≠ (s.effectiveAddress rs imm).toNat - 0x4000 → t.screen.read a = s.screen.read a) ∧
        t.ram = s.ram ∧
        ∃ o : Offset, o.toNat = (s.effectiveAddress rs imm).toNat - 0x4000 ∧ t.dirty = s.dirty ++ [o]) ∧
      (0x6000 ≤ (s.effectiveAddress rs imm).toNat →
        t.ram = s.ram ∧ t.screen = s.screen ∧ t.dirty = s.dirty) ∧
      t.sink = s.sink ∧ t.pc = s.pc + 1 ∧ SameRegs s t ∧ SameControl s t

/-- 42_control_flow.md R130: BEQ. `P` is the branch's own index. The sum modulo 65536 is R28, decision D5 of the
spec (log entry 8). -/
def Obligations.BeqRunsWithFrame : Prop :=
  ∀ (rs rt : Reg) (imm : BitVec 6) (s : State),
    decode (0b0011#4 ++ regBits rs ++ regBits rt ++ imm) = .ok (.beq rs rt imm) ∧
    ∃ t, exec (.beq rs rt imm) s = .next t ∧
      ((s.reg rs).toNat = (s.reg rt).toNat →
        (t.pc.toNat : Int) =
          ((s.pc.toNat : Int) + (if imm.toNat < 32 then (imm.toNat : Int) else (imm.toNat : Int) - 64) + 1) % 65536) ∧
      ((s.reg rs).toNat ≠ (s.reg rt).toNat → t.pc = s.pc + 1) ∧
      SameRegs s t ∧ SameData s t ∧ SameTracker s t ∧ SameControl s t

/-- 42_control_flow.md R131: BNE. The sum modulo 65536 is R28, decision D5 of the spec (log entry 8). -/
def Obligations.BneRunsWithFrame : Prop :=
  ∀ (rs rt : Reg) (imm : BitVec 6) (s : State),
    decode (0b0110#4 ++ regBits rs ++ regBits rt ++ imm) = .ok (.bne rs rt imm) ∧
    ∃ t, exec (.bne rs rt imm) s = .next t ∧
      ((s.reg rs).toNat ≠ (s.reg rt).toNat →
        (t.pc.toNat : Int) =
          ((s.pc.toNat : Int) + (if imm.toNat < 32 then (imm.toNat : Int) else (imm.toNat : Int) - 64) + 1) % 65536) ∧
      ((s.reg rs).toNat = (s.reg rt).toNat → t.pc = s.pc + 1) ∧
      SameRegs s t ∧ SameData s t ∧ SameTracker s t ∧ SameControl s t

/-- 42_control_flow.md R132: J lands on `(P & 0xF000) | addr`, in the page of its own index. -/
def Obligations.JRunsWithFrame : Prop :=
  ∀ (addr : BitVec 12) (s : State),
    decode (0b0100#4 ++ addr) = .ok (.j addr) ∧
    ∃ t, exec (.j addr) s = .next t ∧
      t.pc.toNat = s.pc.toNat / 4096 * 4096 + addr.toNat ∧
      SameRegs s t ∧ SameData s t ∧ SameTracker s t ∧ SameControl s t

/-- 42_control_flow.md R133: JR lands one past its register, and bits 8 to 0 of its word are ignored (30_encoding.md
R95). The wrap from 0xFFFF to 0x0000 is R28, decision D5 of the spec (log entry 8). -/
def Obligations.JrRunsWithFrame : Prop :=
  ∀ (rs : Reg) (s : State),
    (∀ ignored : BitVec 9, decode (0b0111#4 ++ regBits rs ++ ignored) = .ok (.jr rs)) ∧
    ∃ t, exec (.jr rs) s = .next t ∧
      t.pc.toNat = ((s.reg rs).toNat + 1) % 65536 ∧
      SameRegs s t ∧ SameData s t ∧ SameTracker s t ∧ SameControl s t

/-- 42_control_flow.md R134: JAL links its own index in register 7 and lands like J. -/
def Obligations.JalRunsWithFrame : Prop :=
  ∀ (addr : BitVec 12) (s : State),
    decode (0b1000#4 ++ addr) = .ok (.jal addr) ∧
    ∃ t, exec (.jal addr) s = .next t ∧
      t.reg .r7 = s.pc ∧
      t.pc.toNat = s.pc.toNat / 4096 * 4096 + addr.toNat ∧
      SameRegsBut .r7 s t ∧ SameData s t ∧ SameTracker s t ∧ SameControl s t

/-- 43_display_halt.md R140, with the flush of 46_display_differ.md R203: one record is appended, holding one event
per DirtySet entry, in order, with the coordinates of R204 and the colours of R202 read from the screen buffer now;
then the DirtySet is empty. Bits 11 to 0 of the word are ignored (30_encoding.md R95).
That an empty DirtySet appends an empty record (R208) is decision D23 of the spec (log entry 14). -/
def Obligations.DisplayRunsWithFrame : Prop :=
  ∀ s : State,
    (∀ ignored : BitVec 12, decode (0b1111#4 ++ ignored) = .ok .display) ∧
    ∃ t record, exec .display s = .next t ∧
      t.sink = s.sink ++ [record] ∧
      record.length = s.dirty.length ∧
      (∀ (k : Nat) (o : Offset) (e : PixelEvent), s.dirty[k]? = some o → record[k]? = some e →
        e.x.val = o.toNat % 128 ∧ e.y.val = o.toNat / 128 ∧
        e.r.toNat = (s.screen.read o.toNat).toNat / 2048 * 8 ∧
        e.g.toNat = (s.screen.read o.toNat).toNat / 32 % 64 * 4 ∧
        e.b.toNat = (s.screen.read o.toNat).toNat % 32 * 8) ∧
      t.dirty = [] ∧
      t.pc = s.pc + 1 ∧ SameRegs s t ∧ SameData s t ∧ SameControl s t

/-- 43_display_halt.md R141: the halt sentinel changes the run state and nothing else; `pc` stays at the sentinel.
That `pc` stays is decision D8 of the spec (log entry 9). -/
def Obligations.HaltRunsWithFrame : Prop :=
  ∀ s : State,
    decode 0x0000#16 = .ok .halt ∧
    ∃ t, exec .halt s = .next t ∧
      t.run = .halted ∧ t.pc = s.pc ∧ t.err = s.err ∧
      SameRegs s t ∧ SameData s t ∧ SameTracker s t ∧
      t.rom = s.rom ∧ t.kbd = s.kbd ∧ t.freq = s.freq ∧ t.base = s.base ∧ t.notify = s.notify

/-! ### The engine's step -/

/-- 44_engine.md R152 to R155: when no error is latched and `pc` indexes a ROM cell, the step is the effect of what
that cell's word decodes to (with no motion around it: the trailing increment is part of each effect). -/
def Obligations.StepRunsDecodedInstruction : Prop :=
  ∀ (s : State) (i : Instr),
    s.err = none → s.pc.toNat < 0x8000 → decode (s.rom.read s.pc.toNat) = .ok i → step s = exec i s

/-- 00_scope.md R12, 20_memory.md R59: nothing stops the machine but its own states: every instruction, every engine
step and every host operation answers a next state. That every error of the spec is a next state and no fault exists
is DEDUCED from 60_exceptions.md R244, R249 (log entry 17); that the ill-formed term `AND R0, R0, R0` has an effect is
this model's DESIGN CHOICE (log entry 16). -/
def Obligations.EverythingAnswersNextState : Prop :=
  (∀ (i : Instr) (s : State), ∃ t, exec i s = .next t) ∧
  (∀ s : State, ∃ t, step s = .next t) ∧
  (∀ (op : HostOp) (s : State), ∃ t, hostStep op s = .next t)

/-- 44_engine.md R159: every step is precise and all-or-nothing, in one of the four ways of R152. That a latched
error blocks is decision D11, that an error and a halt keep `pc` are D9 and D8 of the spec (log entries 6, 9). -/
def Obligations.StepIsPrecise : Prop :=
  ∀ s t : State, step s = .next t →
    (s.execOutcome = .blocked ∧ s.err ≠ none ∧ t = s) ∨
    (s.execOutcome = .fault ∧ s.err = none ∧ ∃ e, t = { s with err := some e, run := .halted }) ∨
    (s.execOutcome = .halt ∧ s.err = none ∧ t = { s with run := .halted }) ∨
    (s.execOutcome = .retired ∧ s.err = none ∧ t.err = none ∧ t.run = s.run)

/-- 60_exceptions.md R243: a fetch outside ROM takes the error `FetchOutOfRom(pc)`. The error is decision D6 of the
spec, its entry D9 and D11 (log entry 6). -/
def Obligations.FetchOutsideRomTakesError : Prop :=
  ∀ s : State, s.err = none → 0x8000 ≤ s.pc.toNat →
    step s = .next { s with err := some (.fetchOutOfRom s.pc), run := .halted }

/-- 60_exceptions.md R241, R244: a word 0x9000 to 0xEFFF takes the error with its opcode field. The payload is
decision D10, the entry D9 and D11 of the spec (log entry 6). -/
def Obligations.IllegalOpcodeTakesError : Prop :=
  ∀ s : State, s.err = none → s.pc.toNat < 0x8000 →
    0x9000 ≤ (s.rom.read s.pc.toNat).toNat → (s.rom.read s.pc.toNat).toNat ≤ 0xEFFF →
    ∃ op : BitVec 4, op.toNat = (s.rom.read s.pc.toNat).toNat / 4096 ∧
      step s = .next { s with err := some (.invalidOpcode op), run := .halted }

/-- 60_exceptions.md R242, R244: a word of opcode 0x0 with a function code of 3, 4 or 5 takes the error with that
code, whatever its registers hold, and it is the error the ALU of 40_alu.md R115 answers. The payload is decision D10,
the entry D9 and D11 of the spec (log entry 6). -/
def Obligations.IllegalFunctionTakesError : Prop :=
  ∀ s : State, s.err = none → s.pc.toNat < 0x8000 →
    (s.rom.read s.pc.toNat).toNat < 0x1000 →
    3 ≤ (s.rom.read s.pc.toNat).toNat % 8 → (s.rom.read s.pc.toNat).toNat % 8 ≤ 5 →
    ∃ funct : BitVec 3, funct.toNat = (s.rom.read s.pc.toNat).toNat % 8 ∧
      step s = .next { s with err := some (.invalidALUFunction funct), run := .halted } ∧
      ∀ a b : W16, alu funct a b = .error (.invalidALUFunction funct)

/-- 60_exceptions.md R248: while an error is latched, the engine's step and the host's `step`, `tick` and `start`
change nothing. Decision D11 of the spec (log entry 6). -/
def Obligations.LatchedErrorBlocks : Prop :=
  ∀ s : State, s.err ≠ none →
    step s = .next s ∧ hostStep .step s = .next s ∧ hostStep .start s = .next s ∧
    ∀ now, hostStep (.tick now) s = .next s

/-- 10_state.md R37: the error latch is set by the engine alone and cleared by `reset` alone. Decision D11 of the
spec (log entry 6). -/
def Obligations.OnlyResetClearsErrorLatch : Prop :=
  ∀ (op : HostOp) (s t : State), hostStep op s = .next t →
    (s.err ≠ none → t.err ≠ none → t.err = s.err) ∧
    (s.err ≠ none → t.err = none → op = .reset) ∧
    (s.err = none → t.err ≠ none → op = .step ∨ ∃ now, op = .tick now)

/-! ### Invariants -/

/-- The invariant holds at reset. -/
def Obligations.ResetHasInvariant : Prop :=
  ∀ freqInit : Nat, Inv (State.powerOn freqInit) ∧ SinkConverted (State.powerOn freqInit) ∧ Inv State.reset

/-- Every engine step keeps the invariant: canonical memories without cells that do not exist (10_state.md R31 to
R33), and a latched error goes with a Halted engine (44_engine.md R160, decision D11 of the spec, log entry 6). -/
def Obligations.StepKeepsInvariant : Prop :=
  ∀ s t : State, Inv s → step s = .next t → Inv t

/-- Every host operation of 47_host_interface.md R215 keeps the invariant (canonical memories without cells that do
not exist, 10_state.md R31 to R33; a latched error goes with a Halted engine, 44_engine.md R160), a tick with a batch
of any length (R157) included. The latch clause rests on decision D11 of the spec: `start` is blocked while an error is
latched (log entry 6). -/
def Obligations.HostOperationKeepsInvariant : Prop :=
  ∀ (op : HostOp) (s t : State), Inv s → hostStep op s = .next t → Inv t

/-- 46_display_differ.md R202: no colour ever reaches the sink but multiples of 8 (red, blue) and of 4 (green);
every engine step and every host operation keeps that. -/
def Obligations.SinkColoursStayConverted : Prop :=
  (∀ s t : State, SinkConverted s → step s = .next t → SinkConverted t) ∧
  (∀ (op : HostOp) (s t : State), SinkConverted s → hostStep op s = .next t → SinkConverted t)

/-! ### Rules about the whole machine -/

/-- 10_state.md R31, 20_memory.md R67: ROM is changed by `load` and `setCell` on ROM only, never by execution. -/
def Obligations.OnlyLoadAndEditChangeRom : Prop :=
  (∀ s t : State, step s = .next t → t.rom = s.rom) ∧
  (∀ (op : HostOp) (s t : State), hostStep op s = .next t →
    t.rom = s.rom ∨ (∃ words, op = .load .rom words) ∨ ∃ index value, op = .setCell .rom index value)

/-- 10_state.md R34: the keyboard register is changed by `setKeyboardValue` only. That reset keeps it is decision D12
of the spec (log entry 2). -/
def Obligations.OnlyHostSetsKeyboard : Prop :=
  (∀ s t : State, step s = .next t → t.kbd = s.kbd) ∧
  (∀ (op : HostOp) (s t : State), hostStep op s = .next t → t.kbd = s.kbd ∨ op = .setKeyboardValue t.kbd)

/-- 47_host_interface.md R222: an operation that executes no instruction writes neither screen, DirtySet nor pixel
trace, and writes registers and `pc` only if it is `reset`. That reset keeps the DirtySet is decision D12 of the spec
(log entry 2). -/
def Obligations.HostOperationsCannotReachScreenOrRegisters : Prop :=
  ∀ (op : HostOp) (s t : State), hostStep op s = .next t → op ≠ .step → (∀ now, op ≠ .tick now) →
    t.screen = s.screen ∧ t.dirty = s.dirty ∧ t.sink = s.sink ∧
    (op ≠ .reset → t.regs = s.regs ∧ t.pc = s.pc)

/-- 10_state.md R24, the write half: which register an instruction can change. The statement takes in the ill-formed
term `AND R0, R0, R0`: that it has the effect of AND is this model's DESIGN CHOICE (log entry 16). -/
def Obligations.RegisterWritersAreTheListedOnes : Prop :=
  ∀ (i : Instr) (s t : State) (r : Reg), exec i s = .next t → t.reg r ≠ s.reg r →
    match i with
    | .and rd _ _ => r = rd
    | .or rd _ _ => r = rd
    | .add rd _ _ => r = rd
    | .sub rd _ _ => r = rd
    | .slt rd _ _ => r = rd
    | .lw rt _ _ => r = rt
    | .addi rt _ _ => r = rt
    | .jal _ => r = .r7
    | _ => False

/-- 10_state.md R24, the read half: a register that the rule does not list for an instruction has no influence on
it: whatever value `v` it held, everything but that register comes out the same, and it holds either what the
instruction wrote or still `v`. The statement takes in the ill-formed term `AND R0, R0, R0`: that it has the effect of
AND is this model's DESIGN CHOICE (log entry 16). -/
def Obligations.RegisterReadersAreTheListedOnes : Prop :=
  ∀ (i : Instr) (s t : State) (r : Reg) (v : W16),
    (match i with
      | .and _ rs rt => r ≠ rs ∧ r ≠ rt
      | .or _ rs rt => r ≠ rs ∧ r ≠ rt
      | .add _ rs rt => r ≠ rs ∧ r ≠ rt
      | .sub _ rs rt => r ≠ rs ∧ r ≠ rt
      | .slt _ rs rt => r ≠ rs ∧ r ≠ rt
      | .lw _ rs _ => r ≠ rs
      | .sw rt rs _ => r ≠ rs ∧ r ≠ rt
      | .beq rs rt _ => r ≠ rs ∧ r ≠ rt
      | .bne rs rt _ => r ≠ rs ∧ r ≠ rt
      | .addi _ rs _ => r ≠ rs
      | .jr rs => r ≠ rs
      | .j _ => True
      | .jal _ => True
      | .display => True
      | .halt => True) →
    exec i s = .next t →
    ∃ u, exec i (s.setReg r v) = .next u ∧
      { u with regs := t.regs } = t ∧ SameRegsBut r t u ∧ (u.reg r = t.reg r ∨ u.reg r = v)

/-- 42_control_flow.md R135: the next `pc` of every instruction. The last row (the sentinel) is decision D8, and all
sums are modulo 65536 by decision D5 of the spec (log entries 8, 9). The statement takes in the ill-formed term
`AND R0, R0, R0`, which no word stands for (R94): that it advances `pc` is this model's DESIGN CHOICE (log entry 16). -/
def Obligations.NextPcTable : Prop :=
  ∀ (i : Instr) (s t : State), exec i s = .next t →
    (t.pc.toNat : Int) =
      (match i with
        | .beq rs rt imm => if s.reg rs = s.reg rt then (s.pc.toNat : Int) + imm.toInt + 1 else s.pc.toNat + 1
        | .bne rs rt imm => if s.reg rs = s.reg rt then (s.pc.toNat : Int) + 1 else s.pc.toNat + imm.toInt + 1
        | .j addr => ((s.pc.toNat / 4096 * 4096 + addr.toNat : Nat) : Int)
        | .jal addr => ((s.pc.toNat / 4096 * 4096 + addr.toNat : Nat) : Int)
        | .jr rs => ((s.reg rs).toNat : Int) + 1
        | .halt => (s.pc.toNat : Int)
        | _ => (s.pc.toNat : Int) + 1) % 65536

/-- 10_state.md R44: no instruction's result depends on the DirtySet, the run state, the frequency, the baseline or
the output traces: two states that agree on everything else still agree on it after a step. -/
def Obligations.ControlStateIsInvisibleToPrograms : Prop :=
  ∀ s u s' u' : State,
    u.regs = s.regs → u.pc = s.pc → u.rom = s.rom → u.ram = s.ram → u.screen = s.screen → u.kbd = s.kbd →
    u.err = s.err → step s = .next s' → step u = .next u' →
    u'.regs = s'.regs ∧ u'.pc = s'.pc ∧ u'.rom = s'.rom ∧ u'.ram = s'.ram ∧ u'.screen = s'.screen ∧
      u'.kbd = s'.kbd ∧ u'.err = s'.err

/-- 20_memory.md R63: a load returns the latest store to that cell; a store leaves every other data address alone
(R57, R58), and at the keyboard register and the hole it changes nothing. -/
def Obligations.LoadReturnsLatestStore : Prop :=
  ∀ (s : State) (a b v : W16), Inv s →
    (a.toNat < 0x6000 → (s.memWrite a v).memRead a = v) ∧
    (b ≠ a → (s.memWrite a v).memRead b = s.memRead b) ∧
    (0x6000 ≤ a.toNat → s.memWrite a v = s)

/-- 46_display_differ.md R200: the DirtySet grows by a store to a screen address, is emptied by DISPLAY, and nothing
else touches it. The statement takes in the ill-formed term `AND R0, R0, R0`: that it has the effect of AND is this
model's DESIGN CHOICE (log entry 16). -/
def Obligations.DirtySetTracksScreenStores : Prop :=
  ∀ (i : Instr) (s t : State), exec i s = .next t →
    t.dirty.map BitVec.toNat =
      (match i with
        | .sw _ rs imm =>
          s.dirty.map BitVec.toNat ++
            (if 0x4000 ≤ (s.effectiveAddress rs imm).toNat ∧ (s.effectiveAddress rs imm).toNat ≤ 0x5FFF
              then [(s.effectiveAddress rs imm).toNat - 0x4000] else [])
        | .display => []
        | _ => s.dirty.map BitVec.toNat)

/-- 46_display_differ.md R210: after a flush, a sink that has painted the whole stream in order shows, for every
offset that was dirty, the conversion of the current screen cell. -/
def Obligations.FlushPaintsCurrentScreen : Prop :=
  ∀ (s t : State) (o : Offset), o ∈ s.dirty → exec .display s = .next t →
    paintedAt t.sink.flatten (columnOf o) (rowOf o) =
      some (redOf (t.screen.read o.toNat), greenOf (t.screen.read o.toNat), blueOf (t.screen.read o.toNat))

/-- 10_state.md R41: the pixel trace is append-only: no engine step and no host operation takes a record back.
That reset keeps it is decision D12 of the spec (log entry 2). -/
def Obligations.PixelTraceIsAppendOnly : Prop :=
  (∀ s t : State, step s = .next t → ∃ records, t.sink = s.sink ++ records) ∧
  (∀ (op : HostOp) (s t : State), hostStep op s = .next t → ∃ records, t.sink = s.sink ++ records)

/-- 70_reset_and_hazards.md R276: JAL at index `Q` to a subroutine that is a `JR R7` returns to `Q + 1`. -/
def Obligations.CallThenReturnLandsAfterCall : Prop :=
  ∀ (s : State) (addr : BitVec 12), s.err = none → s.pc.toNat < 0x8000 →
    s.rom.read s.pc.toNat = (0b1000#4 ++ addr : BitVec (4 + 12)) →
    s.rom.read (s.pc.toNat / 4096 * 4096 + addr.toNat) = 0x7E00 →
    ∃ t u, step s = .next t ∧ step t = .next u ∧
      t.pc.toNat = s.pc.toNat / 4096 * 4096 + addr.toNat ∧ u.pc = s.pc + 1 ∧ u.reg .r7 = s.pc

/-! ### Batches, the throttle and the host's operations -/

/-- 44_engine.md R157, R158: ending a batch at a halt or an error is indistinguishable from running the remaining
iterations: a batch of `n` is `n` engine steps of the machine behind Host/Core.lean. It rests on decisions D8 and D11
of the spec (log entries 6, 9). That the machine's step is the engine's step is this model's DESIGN CHOICE (log
entry 11). -/
def Obligations.BatchIsIteratedStep : Prop :=
  ∀ (n : Nat) (s : State), runBatch n s = Host.Core.run Sys2Proof.core n s

/-- 44_engine.md R157: how a run is cut into batches does not matter to its state. It rests on decisions D8 and D11
of the spec (log entries 6, 9). -/
def Obligations.BatchesCompose : Prop :=
  ∀ (m n : Nat) (s t : State), runBatch m s = .next t → runBatch (m + n) s = runBatch n t

/-- 45_throttle.md R182: the budget is `floor(freq * (now - t0))`, an integer, computed exactly. That timestamps
are exact rationals is decision D17 of the spec (log entry 13). -/
def Obligations.BudgetIsExactFloor : Prop :=
  ∀ (freq : Nat) (t0 now : Timestamp),
    budget freq t0 now = ⌊(freq : Rat) * (now.seconds - t0.seconds)⌋

/-- 45_throttle.md R183: the tick, line by line. That a tick does nothing while an error is latched is decision
D11, when the baseline moves D16, the timestamps D17, the notification D22 of the spec (log entries 6, 13, 12). -/
def Obligations.TickFollowsItsListing : Prop :=
  ∀ (now : Timestamp) (s : State),
    (s.err ≠ none ∨ s.run ≠ .running → hostStep (.tick now) s = .next s) ∧
    (s.err = none → s.run = .running → s.base = none →
      hostStep (.tick now) s = .next { s with base := some now }) ∧
    (∀ t0, s.err = none → s.run = .running → s.base = some t0 →
      ⌊(s.freq : Rat) * (now.seconds - t0.seconds)⌋ ≤ 0 → hostStep (.tick now) s = .next s) ∧
    (∀ t0, s.err = none → s.run = .running → s.base = some t0 →
      0 < ⌊(s.freq : Rat) * (now.seconds - t0.seconds)⌋ →
      ∃ u, runBatch ⌊(s.freq : Rat) * (now.seconds - t0.seconds)⌋.toNat { s with base := some now } = .next u ∧
        hostStep (.tick now) s = .next { u with notify := u.notify + 1 })

/-- 47_host_interface.md R224: `step` runs one ExecOne from any run state, leaves the scheduler alone, sends one
notification, and changes the run state only to Halted. The run state after it is decision D21, the notification D22
of the spec (log entry 12). -/
def Obligations.SingleStepIsOneExecOne : Prop :=
  ∀ s u : State, s.err = none → step s = .next u →
    hostStep .step s = .next { u with notify := u.notify + 1 } ∧
    u.freq = s.freq ∧ u.base = s.base ∧ u.notify = s.notify ∧
    (u.run = s.run ∨ u.run = .halted) ∧ (s.execOutcome = .retired → u.run = s.run)

/-- 47_host_interface.md R225, R226: `start` and `stop`, in every state. Decisions D14 and D15 of the spec (log
entry 12). -/
def Obligations.StartAndStopMoveTheRunState : Prop :=
  ∀ s : State,
    (s.err = none → s.run ≠ .running → hostStep .start s = .next { s with run := .running, base := none }) ∧
    (s.err ≠ none ∨ s.run = .running → hostStep .start s = .next s) ∧
    (s.run = .running → hostStep .stop s = .next { s with run := .idle }) ∧
    (s.run ≠ .running → hostStep .stop s = .next s)

/-- 47_host_interface.md R223, 70_reset_and_hazards.md R270: what `reset` sets and what it keeps. The run state, the
latch, the baseline, keyboard, DirtySet, frequency and traces are decision D12, the notification D22 of the spec (log
entries 2, 12). -/
def Obligations.ResetOperationSetsAndKeeps : Prop :=
  ∀ s : State, ∃ t, hostStep .reset s = .next t ∧
    (∀ r, t.reg r = if r = .r6 then 0x3FFF else 0x0000) ∧
    t.pc = 0x0000 ∧ (∀ a, t.ram.read a = 0x0000) ∧
    t.run = .idle ∧ t.err = none ∧ t.base = none ∧ t.notify = s.notify + 1 ∧
    t.rom = s.rom ∧ t.screen = s.screen ∧ t.kbd = s.kbd ∧ t.dirty = s.dirty ∧ t.freq = s.freq ∧ t.sink = s.sink

/-- 10_state.md R40, 70_reset_and_hazards.md R271: the power-on state, for every FREQ_INIT. The power-on column is
decision D13 of the spec (log entry 3). -/
def Obligations.PowerOnState : Prop :=
  ∀ freqInit : Nat,
    (∀ r, (State.powerOn freqInit).reg r = if r = .r6 then 0x3FFF else 0x0000) ∧
    (State.powerOn freqInit).pc = 0x0000 ∧
    (∀ a, (State.powerOn freqInit).rom.read a = 0x0000) ∧
    (∀ a, (State.powerOn freqInit).ram.read a = 0x0000) ∧
    (∀ a, (State.powerOn freqInit).screen.read a = 0x0000) ∧
    (State.powerOn freqInit).kbd = 0x0000 ∧ (State.powerOn freqInit).dirty = [] ∧
    (State.powerOn freqInit).run = .idle ∧ (State.powerOn freqInit).err = none ∧
    (State.powerOn freqInit).freq = freqInit ∧ (State.powerOn freqInit).base = none ∧
    (State.powerOn freqInit).sink = [] ∧ (State.powerOn freqInit).notify = 0

/-- 47_host_interface.md R217, R218: a load that fits replaces the whole region, zero filled, and sends one
notification; one that does not fit changes nothing and reports `ImageTooLarge`. The zero fill is decision D19, the
notifications D22 of the spec (log entries 7, 12). -/
def Obligations.LoadReplacesRegionOrFails : Prop :=
  ∀ (region : Region) (words : List W16) (s : State),
    (words.length ≤ (match region with | .rom => 32768 | .ram => 16384) →
      hostReply (.load region words) = .done ∧
      ∃ t, hostStep (.load region words) s = .next t ∧
        (∀ i, (t.region region).read i = words.getD i 0x0000) ∧
        (∀ other, other ≠ region → t.region other = s.region other) ∧
        t.notify = s.notify + 1 ∧
        t.regs = s.regs ∧ t.pc = s.pc ∧ t.screen = s.screen ∧ t.kbd = s.kbd ∧ t.dirty = s.dirty ∧
        t.run = s.run ∧ t.err = s.err ∧ t.freq = s.freq ∧ t.base = s.base ∧ t.sink = s.sink) ∧
    ((match region with | .rom => 32768 | .ram => 16384) < words.length →
      hostReply (.load region words) = .imageTooLarge ∧ hostStep (.load region words) s = .next s)

/-- 47_host_interface.md R220: a cell edit in bounds sets that cell of ROM or RAM and sends one notification; out of
bounds nothing happens. The out-of-bounds case is decision D20, the notification D22 of the spec (log entry 12). -/
def Obligations.SetCellEditsOneCell : Prop :=
  ∀ (region : Region) (index : Nat) (value : W16) (s : State), Inv s →
    (index < (match region with | .rom => 32768 | .ram => 16384) →
      ∃ t, hostStep (.setCell region index value) s = .next t ∧
        (∀ i, (t.region region).read i = if i = index then value else (s.region region).read i) ∧
        (∀ other, other ≠ region → t.region other = s.region other) ∧
        t.notify = s.notify + 1 ∧
        t.regs = s.regs ∧ t.pc = s.pc ∧ t.screen = s.screen ∧ t.kbd = s.kbd ∧ t.dirty = s.dirty ∧
        t.run = s.run ∧ t.err = s.err ∧ t.freq = s.freq ∧ t.base = s.base ∧ t.sink = s.sink) ∧
    ((match region with | .rom => 32768 | .ram => 16384) ≤ index →
      hostStep (.setCell region index value) s = .next s)

/-- 47_host_interface.md R227 and 45_throttle.md R181: keyboard and frequency are stored as given and nothing else
changes; the key code is what a load from 0x6000 then returns (20_memory.md R56), and every other data address reads
as before. That no notification is sent is decision D22 of the spec (log entry 12). -/
def Obligations.KeyboardAndFrequencyStoredVerbatim : Prop :=
  ∀ (s : State) (code : W16) (hz : Nat),
    (∃ t, hostStep (.setKeyboardValue code) s = .next t ∧ t = { s with kbd := code } ∧
      ∀ a : W16, t.memRead a = if a.toNat = 0x6000 then code else s.memRead a) ∧
    hostStep (.setFrequency hz) s = .next { s with freq := hz }

/-- 47_host_interface.md R228: exactly which operations send the one change notification. Decision D22 of the spec
(log entry 12). -/
def Obligations.NotificationPoints : Prop :=
  ∀ (op : HostOp) (s t : State), hostStep op s = .next t →
    (t.notify = s.notify ∨ t.notify = s.notify + 1) ∧
    (t.notify = s.notify + 1 ↔
      match op with
      | .load region words => words.length ≤ (match region with | .rom => 32768 | .ram => 16384)
      | .setCell region index _ => index < (match region with | .rom => 32768 | .ram => 16384)
      | .tick now => s.err = none ∧ s.run = .running ∧
          ∃ t0, s.base = some t0 ∧ 1 ≤ (s.freq : Rat) * (now.seconds - t0.seconds)
      | .step => s.err = none
      | .reset => True
      | .setKeyboardValue _ => False
      | .start => False
      | .stop => False
      | .setFrequency _ => False)
end

