-- ==== Sys2Proof/Laws/Decode.lean ====
section
/-! SUPPORT. The small laws of decoder and encoder: register fields, and the fields of a word built by a format. -/

namespace Sys2Proof

@[simp] theorem regOf_regBits (r : Reg) : regOf (regBits r) = r := by cases r <;> rfl

theorem regBits_toNat_lt (r : Reg) : (regBits r).toNat < 8 := (regBits r).isLt

theorem regBits_inj {a b : Reg} (h : regBits a = regBits b) : a = b := by
  rw [← regOf_regBits a, h, regOf_regBits]

@[simp] theorem regBits_regOf (b : BitVec 3) : regBits (regOf b) = b := by
  have key : ∀ n : Fin 8, regBits (regOf (BitVec.ofFin n)) = BitVec.ofFin n := by decide
  exact key b.toFin

/-- Concatenation as arithmetic. -/
theorem append_toNat {m n : Nat} (a : BitVec m) (b : BitVec n) : (a ++ b).toNat = a.toNat * 2 ^ n + b.toNat := by
  rw [BitVec.toNat_append, ← Nat.shiftLeft_add_eq_or_of_lt b.isLt, Nat.shiftLeft_eq]

/-- The formula of 30_encoding.md R101 for the R-format. -/
theorem encodeR_toNat (rs rt rd : Reg) (funct : BitVec 3) :
    (encodeR rs rt rd funct).toNat =
      (regBits rs).toNat * 512 + (regBits rt).toNat * 64 + (regBits rd).toNat * 8 + funct.toNat := by
  simp only [encodeR, append_toNat]
  simp
  ring

/-- The formula of 30_encoding.md R101 for the I-format. -/
theorem encodeI_toNat (op : BitVec 4) (rs rt : Reg) (imm : BitVec 6) :
    (encodeI op rs rt imm).toNat =
      op.toNat * 4096 + (regBits rs).toNat * 512 + (regBits rt).toNat * 64 + imm.toNat := by
  simp only [encodeI, append_toNat]
  ring

/-- The formula of 30_encoding.md R101 for the J-format. -/
theorem encodeJ_toNat (op : BitVec 4) (addr : BitVec 12) :
    (encodeJ op addr).toNat = op.toNat * 4096 + addr.toNat := by
  simp only [encodeJ, append_toNat]
  norm_num

/-- A field of a word, as arithmetic: shift right, keep the low bits. -/
theorem field_toNat (w : W16) (lo n : Nat) : (w.extractLsb' lo n).toNat = w.toNat / 2 ^ lo % 2 ^ n := by
  simp [Nat.shiftRight_eq_div_pow]

/-- The fields of an R-format word are the ones it was built from. -/
theorem decodeFields_encodeR (rs rt rd : Reg) (funct : BitVec 3) :
    (decodeFields (encodeR rs rt rd funct)).op = 0#4 ∧
    (decodeFields (encodeR rs rt rd funct)).rs = regBits rs ∧
    (decodeFields (encodeR rs rt rd funct)).rt = regBits rt ∧
    (decodeFields (encodeR rs rt rd funct)).rd = regBits rd ∧
    (decodeFields (encodeR rs rt rd funct)).funct = funct := by
  have h1 := regBits_toNat_lt rs
  have h2 := regBits_toNat_lt rt
  have h3 := regBits_toNat_lt rd
  have h4 := funct.isLt
  refine ⟨?_, ?_, ?_, ?_, ?_⟩ <;>
    · apply BitVec.eq_of_toNat_eq
      simp only [decodeFields, field_toNat, encodeR_toNat, BitVec.toNat_ofNat]
      omega

/-- The fields of an I-format word are the ones it was built from. -/
theorem decodeFields_encodeI (op : BitVec 4) (rs rt : Reg) (imm : BitVec 6) :
    (decodeFields (encodeI op rs rt imm)).op = op ∧
    (decodeFields (encodeI op rs rt imm)).rs = regBits rs ∧
    (decodeFields (encodeI op rs rt imm)).rt = regBits rt ∧
    (decodeFields (encodeI op rs rt imm)).imm = imm := by
  have h1 := regBits_toNat_lt rs
  have h2 := regBits_toNat_lt rt
  have h3 := op.isLt
  have h4 := imm.isLt
  refine ⟨?_, ?_, ?_, ?_⟩ <;>
    · apply BitVec.eq_of_toNat_eq
      simp only [decodeFields, field_toNat, encodeI_toNat]
      omega

/-- The fields of a J-format word are the ones it was built from. -/
theorem decodeFields_encodeJ (op : BitVec 4) (addr : BitVec 12) :
    (decodeFields (encodeJ op addr)).op = op ∧ (decodeFields (encodeJ op addr)).addr = addr := by
  have h3 := op.isLt
  have h4 := addr.isLt
  refine ⟨?_, ?_⟩ <;>
    · apply BitVec.eq_of_toNat_eq
      simp only [decodeFields, field_toNat, encodeJ_toNat]
      omega

/-- A word that is not the sentinel is decoded by the opcode table (30_encoding.md R98). -/
theorem decode_of_ne {w : W16} (h : w ≠ Config.haltWord) : decode w = decodeOp (decodeFields w) := by
  rw [decode, if_neg h]

/-- The sentinel is tested first (30_encoding.md R94). -/
theorem decode_haltWord : decode Config.haltWord = .ok .halt := if_pos rfl

/-- A word above zero is not the sentinel. -/
theorem ne_haltWord_of_pos {w : W16} (h : 0 < w.toNat) : w ≠ Config.haltWord := by
  rintro rfl
  simp at h

/-- A J-format word of a non-zero opcode is dispatched on that opcode and address. -/
theorem decode_encodeJ (op : BitVec 4) (addr : BitVec 12) (h : 0 < op.toNat) :
    ∃ f : Fields, decode (encodeJ op addr) = decodeOp f ∧ f.op = op ∧ f.addr = addr := by
  obtain ⟨h1, h2⟩ := decodeFields_encodeJ op addr
  refine ⟨_, decode_of_ne (ne_haltWord_of_pos ?_), h1, h2⟩
  rw [encodeJ_toNat]
  omega

/-- An I-format word of a non-zero opcode is dispatched on that opcode, registers and immediate. -/
theorem decode_encodeI (op : BitVec 4) (rs rt : Reg) (imm : BitVec 6) (h : 0 < op.toNat) :
    ∃ f : Fields, decode (encodeI op rs rt imm) = decodeOp f ∧
      f.op = op ∧ f.rs = regBits rs ∧ f.rt = regBits rt ∧ f.imm = imm := by
  obtain ⟨h1, h2, h3, h4⟩ := decodeFields_encodeI op rs rt imm
  refine ⟨_, decode_of_ne (ne_haltWord_of_pos ?_), h1, h2, h3, h4⟩
  rw [encodeI_toNat]
  omega

/-- An R-format word other than the sentinel is dispatched on its function code. -/
theorem decode_encodeR (rs rt rd : Reg) (funct : BitVec 3) (h : encodeR rs rt rd funct ≠ Config.haltWord) :
    ∃ f : Fields, decode (encodeR rs rt rd funct) = decodeAlu f ∧
      f.rs = regBits rs ∧ f.rt = regBits rt ∧ f.rd = regBits rd ∧ f.funct = funct := by
  obtain ⟨h1, h2, h3, h4, h5⟩ := decodeFields_encodeR rs rt rd funct
  refine ⟨_, ?_, h2, h3, h4, h5⟩
  rw [decode_of_ne h, decodeOp, h1]
  rfl

end Sys2Proof
end

