-- ==== Sys2Proof/Laws/State.lean ====
section
/-! SUPPORT. What each update of the state does to each field, so that no proof unfolds a record update. -/

namespace Sys2Proof.Machine

/-! ### `setReg` -/

@[simp] theorem State.setReg_regs (s : State) (r : Reg) (v : W16) : (s.setReg r v).regs = s.regs.set r v := rfl
@[simp] theorem State.setReg_pc (s : State) (r : Reg) (v : W16) : (s.setReg r v).pc = s.pc := rfl
@[simp] theorem State.setReg_rom (s : State) (r : Reg) (v : W16) : (s.setReg r v).rom = s.rom := rfl
@[simp] theorem State.setReg_ram (s : State) (r : Reg) (v : W16) : (s.setReg r v).ram = s.ram := rfl
@[simp] theorem State.setReg_screen (s : State) (r : Reg) (v : W16) : (s.setReg r v).screen = s.screen := rfl
@[simp] theorem State.setReg_kbd (s : State) (r : Reg) (v : W16) : (s.setReg r v).kbd = s.kbd := rfl
@[simp] theorem State.setReg_dirty (s : State) (r : Reg) (v : W16) : (s.setReg r v).dirty = s.dirty := rfl
@[simp] theorem State.setReg_run (s : State) (r : Reg) (v : W16) : (s.setReg r v).run = s.run := rfl
@[simp] theorem State.setReg_err (s : State) (r : Reg) (v : W16) : (s.setReg r v).err = s.err := rfl
@[simp] theorem State.setReg_freq (s : State) (r : Reg) (v : W16) : (s.setReg r v).freq = s.freq := rfl
@[simp] theorem State.setReg_base (s : State) (r : Reg) (v : W16) : (s.setReg r v).base = s.base := rfl
@[simp] theorem State.setReg_sink (s : State) (r : Reg) (v : W16) : (s.setReg r v).sink = s.sink := rfl
@[simp] theorem State.setReg_notify (s : State) (r : Reg) (v : W16) : (s.setReg r v).notify = s.notify := rfl

/-! ### `setPc` -/

@[simp] theorem State.setPc_regs (s : State) (t : W16) : (s.setPc t).regs = s.regs := rfl
@[simp] theorem State.setPc_pc (s : State) (t : W16) : (s.setPc t).pc = t := rfl
@[simp] theorem State.setPc_rom (s : State) (t : W16) : (s.setPc t).rom = s.rom := rfl
@[simp] theorem State.setPc_ram (s : State) (t : W16) : (s.setPc t).ram = s.ram := rfl
@[simp] theorem State.setPc_screen (s : State) (t : W16) : (s.setPc t).screen = s.screen := rfl
@[simp] theorem State.setPc_kbd (s : State) (t : W16) : (s.setPc t).kbd = s.kbd := rfl
@[simp] theorem State.setPc_dirty (s : State) (t : W16) : (s.setPc t).dirty = s.dirty := rfl
@[simp] theorem State.setPc_run (s : State) (t : W16) : (s.setPc t).run = s.run := rfl
@[simp] theorem State.setPc_err (s : State) (t : W16) : (s.setPc t).err = s.err := rfl
@[simp] theorem State.setPc_freq (s : State) (t : W16) : (s.setPc t).freq = s.freq := rfl
@[simp] theorem State.setPc_base (s : State) (t : W16) : (s.setPc t).base = s.base := rfl
@[simp] theorem State.setPc_sink (s : State) (t : W16) : (s.setPc t).sink = s.sink := rfl
@[simp] theorem State.setPc_notify (s : State) (t : W16) : (s.setPc t).notify = s.notify := rfl

/-! ### `advance` -/

@[simp] theorem State.advance_regs (s : State) : (s.advance).regs = s.regs := rfl
@[simp] theorem State.advance_pc (s : State) : (s.advance).pc = s.pc + 1 := rfl
@[simp] theorem State.advance_rom (s : State) : (s.advance).rom = s.rom := rfl
@[simp] theorem State.advance_ram (s : State) : (s.advance).ram = s.ram := rfl
@[simp] theorem State.advance_screen (s : State) : (s.advance).screen = s.screen := rfl
@[simp] theorem State.advance_kbd (s : State) : (s.advance).kbd = s.kbd := rfl
@[simp] theorem State.advance_dirty (s : State) : (s.advance).dirty = s.dirty := rfl
@[simp] theorem State.advance_run (s : State) : (s.advance).run = s.run := rfl
@[simp] theorem State.advance_err (s : State) : (s.advance).err = s.err := rfl
@[simp] theorem State.advance_freq (s : State) : (s.advance).freq = s.freq := rfl
@[simp] theorem State.advance_base (s : State) : (s.advance).base = s.base := rfl
@[simp] theorem State.advance_sink (s : State) : (s.advance).sink = s.sink := rfl
@[simp] theorem State.advance_notify (s : State) : (s.advance).notify = s.notify := rfl

/-! ### `halt` -/

@[simp] theorem State.halt_regs (s : State) : (s.halt).regs = s.regs := rfl
@[simp] theorem State.halt_pc (s : State) : (s.halt).pc = s.pc := rfl
@[simp] theorem State.halt_rom (s : State) : (s.halt).rom = s.rom := rfl
@[simp] theorem State.halt_ram (s : State) : (s.halt).ram = s.ram := rfl
@[simp] theorem State.halt_screen (s : State) : (s.halt).screen = s.screen := rfl
@[simp] theorem State.halt_kbd (s : State) : (s.halt).kbd = s.kbd := rfl
@[simp] theorem State.halt_dirty (s : State) : (s.halt).dirty = s.dirty := rfl
@[simp] theorem State.halt_run (s : State) : (s.halt).run = .halted := rfl
@[simp] theorem State.halt_err (s : State) : (s.halt).err = s.err := rfl
@[simp] theorem State.halt_freq (s : State) : (s.halt).freq = s.freq := rfl
@[simp] theorem State.halt_base (s : State) : (s.halt).base = s.base := rfl
@[simp] theorem State.halt_sink (s : State) : (s.halt).sink = s.sink := rfl
@[simp] theorem State.halt_notify (s : State) : (s.halt).notify = s.notify := rfl

/-! ### `raiseError` -/

@[simp] theorem State.raiseError_regs (s : State) (e : EngineError) : (s.raiseError e).regs = s.regs := rfl
@[simp] theorem State.raiseError_pc (s : State) (e : EngineError) : (s.raiseError e).pc = s.pc := rfl
@[simp] theorem State.raiseError_rom (s : State) (e : EngineError) : (s.raiseError e).rom = s.rom := rfl
@[simp] theorem State.raiseError_ram (s : State) (e : EngineError) : (s.raiseError e).ram = s.ram := rfl
@[simp] theorem State.raiseError_screen (s : State) (e : EngineError) : (s.raiseError e).screen = s.screen := rfl
@[simp] theorem State.raiseError_kbd (s : State) (e : EngineError) : (s.raiseError e).kbd = s.kbd := rfl
@[simp] theorem State.raiseError_dirty (s : State) (e : EngineError) : (s.raiseError e).dirty = s.dirty := rfl
@[simp] theorem State.raiseError_run (s : State) (e : EngineError) : (s.raiseError e).run = .halted := rfl
@[simp] theorem State.raiseError_err (s : State) (e : EngineError) : (s.raiseError e).err = some e := rfl
@[simp] theorem State.raiseError_freq (s : State) (e : EngineError) : (s.raiseError e).freq = s.freq := rfl
@[simp] theorem State.raiseError_base (s : State) (e : EngineError) : (s.raiseError e).base = s.base := rfl
@[simp] theorem State.raiseError_sink (s : State) (e : EngineError) : (s.raiseError e).sink = s.sink := rfl
@[simp] theorem State.raiseError_notify (s : State) (e : EngineError) : (s.raiseError e).notify = s.notify := rfl

/-! ### `flush` -/

@[simp] theorem State.flush_regs (s : State) : (s.flush).regs = s.regs := rfl
@[simp] theorem State.flush_pc (s : State) : (s.flush).pc = s.pc := rfl
@[simp] theorem State.flush_rom (s : State) : (s.flush).rom = s.rom := rfl
@[simp] theorem State.flush_ram (s : State) : (s.flush).ram = s.ram := rfl
@[simp] theorem State.flush_screen (s : State) : (s.flush).screen = s.screen := rfl
@[simp] theorem State.flush_kbd (s : State) : (s.flush).kbd = s.kbd := rfl
@[simp] theorem State.flush_dirty (s : State) : (s.flush).dirty = [] := rfl
@[simp] theorem State.flush_run (s : State) : (s.flush).run = s.run := rfl
@[simp] theorem State.flush_err (s : State) : (s.flush).err = s.err := rfl
@[simp] theorem State.flush_freq (s : State) : (s.flush).freq = s.freq := rfl
@[simp] theorem State.flush_base (s : State) : (s.flush).base = s.base := rfl
@[simp] theorem State.flush_sink (s : State) : (s.flush).sink = s.sink ++ [s.dirty.map (pixelEvent s.screen)] := rfl
@[simp] theorem State.flush_notify (s : State) : (s.flush).notify = s.notify := rfl

/-! ### `notified` -/

@[simp] theorem State.notified_regs (s : State) : (s.notified).regs = s.regs := rfl
@[simp] theorem State.notified_pc (s : State) : (s.notified).pc = s.pc := rfl
@[simp] theorem State.notified_rom (s : State) : (s.notified).rom = s.rom := rfl
@[simp] theorem State.notified_ram (s : State) : (s.notified).ram = s.ram := rfl
@[simp] theorem State.notified_screen (s : State) : (s.notified).screen = s.screen := rfl
@[simp] theorem State.notified_kbd (s : State) : (s.notified).kbd = s.kbd := rfl
@[simp] theorem State.notified_dirty (s : State) : (s.notified).dirty = s.dirty := rfl
@[simp] theorem State.notified_run (s : State) : (s.notified).run = s.run := rfl
@[simp] theorem State.notified_err (s : State) : (s.notified).err = s.err := rfl
@[simp] theorem State.notified_freq (s : State) : (s.notified).freq = s.freq := rfl
@[simp] theorem State.notified_base (s : State) : (s.notified).base = s.base := rfl
@[simp] theorem State.notified_sink (s : State) : (s.notified).sink = s.sink := rfl
@[simp] theorem State.notified_notify (s : State) : (s.notified).notify = s.notify + 1 := rfl

/-! ### `memWrite`: what a store never touches (20_memory.md R57) -/

@[simp] theorem State.memWrite_regs (s : State) (a v : W16) : (s.memWrite a v).regs = s.regs := by
  unfold State.memWrite; split <;> [rfl; (split <;> rfl)]
@[simp] theorem State.memWrite_pc (s : State) (a v : W16) : (s.memWrite a v).pc = s.pc := by
  unfold State.memWrite; split <;> [rfl; (split <;> rfl)]
@[simp] theorem State.memWrite_rom (s : State) (a v : W16) : (s.memWrite a v).rom = s.rom := by
  unfold State.memWrite; split <;> [rfl; (split <;> rfl)]
@[simp] theorem State.memWrite_kbd (s : State) (a v : W16) : (s.memWrite a v).kbd = s.kbd := by
  unfold State.memWrite; split <;> [rfl; (split <;> rfl)]
@[simp] theorem State.memWrite_run (s : State) (a v : W16) : (s.memWrite a v).run = s.run := by
  unfold State.memWrite; split <;> [rfl; (split <;> rfl)]
@[simp] theorem State.memWrite_err (s : State) (a v : W16) : (s.memWrite a v).err = s.err := by
  unfold State.memWrite; split <;> [rfl; (split <;> rfl)]
@[simp] theorem State.memWrite_freq (s : State) (a v : W16) : (s.memWrite a v).freq = s.freq := by
  unfold State.memWrite; split <;> [rfl; (split <;> rfl)]
@[simp] theorem State.memWrite_base (s : State) (a v : W16) : (s.memWrite a v).base = s.base := by
  unfold State.memWrite; split <;> [rfl; (split <;> rfl)]
@[simp] theorem State.memWrite_sink (s : State) (a v : W16) : (s.memWrite a v).sink = s.sink := by
  unfold State.memWrite; split <;> [rfl; (split <;> rfl)]
@[simp] theorem State.memWrite_notify (s : State) (a v : W16) : (s.memWrite a v).notify = s.notify := by
  unfold State.memWrite; split <;> [rfl; (split <;> rfl)]

/-! ### Registers -/

/-- A register reads back what was written to it, and every other register is left alone. -/
theorem Regs.get_set (x : Regs) (r q : Reg) (v : W16) : (x.set r v).get q = if q = r then v else x.get q := by
  cases r <;> cases q <;> rfl

@[simp] theorem Regs.get_set_self (x : Regs) (r : Reg) (v : W16) : (x.set r v).get r = v := by
  simp [Regs.get_set]

theorem Regs.get_set_of_ne (x : Regs) {r q : Reg} (h : q ≠ r) (v : W16) : (x.set r v).get q = x.get q := by
  simp [Regs.get_set, h]

/-- Register files that read alike are equal. -/
theorem Regs.ext_get {x y : Regs} (h : ∀ r, x.get r = y.get r) : x = y := by
  cases x; cases y
  have h0 := h .r0; have h1 := h .r1; have h2 := h .r2; have h3 := h .r3
  have h4 := h .r4; have h5 := h .r5; have h6 := h .r6; have h7 := h .r7
  simp only [Regs.get] at h0 h1 h2 h3 h4 h5 h6 h7
  subst h0 h1 h2 h3 h4 h5 h6 h7
  rfl

theorem State.reg_setReg (s : State) (r q : Reg) (v : W16) :
    (s.setReg r v).reg q = if q = r then v else s.reg q := Regs.get_set ..

@[simp] theorem State.reg_setReg_self (s : State) (r : Reg) (v : W16) : (s.setReg r v).reg r = v :=
  Regs.get_set_self ..

@[simp] theorem State.reg_setPc (s : State) (t : W16) (q : Reg) : (s.setPc t).reg q = s.reg q := rfl
@[simp] theorem State.reg_advance (s : State) (q : Reg) : (s.advance).reg q = s.reg q := rfl
@[simp] theorem State.reg_halt (s : State) (q : Reg) : (s.halt).reg q = s.reg q := rfl
@[simp] theorem State.reg_raiseError (s : State) (e : EngineError) (q : Reg) : (s.raiseError e).reg q = s.reg q := rfl
@[simp] theorem State.reg_flush (s : State) (q : Reg) : (s.flush).reg q = s.reg q := rfl
@[simp] theorem State.reg_notified (s : State) (q : Reg) : (s.notified).reg q = s.reg q := rfl
@[simp] theorem State.reg_memWrite (s : State) (a v : W16) (q : Reg) : (s.memWrite a v).reg q = s.reg q := by
  simp [State.reg]

end Sys2Proof.Machine
end

