-- ==== Sys2Proof/Laws/Memory.lean ====
section
/-! SUPPORT. The laws of the word memories: a read after a write, the canonical form and its upkeep, images. -/

namespace Sys2Proof.Machine

@[simp] theorem Memory.read_nil (a : Nat) : Memory.read [] a = Config.unlistedCell := rfl

theorem Memory.wfFrom_cons {cap lo k : Nat} {v : W16} {m : Memory} :
    Memory.wfFrom cap lo ((k, v) :: m) = true ↔
      lo ≤ k ∧ k < cap ∧ v ≠ Config.unlistedCell ∧ Memory.wfFrom cap (k + 1) m = true := by
  simp [Memory.wfFrom, and_assoc]

theorem Memory.wfFrom_mono {cap lo lo' : Nat} {m : Memory} (h : lo' ≤ lo) (hm : Memory.wfFrom cap lo m = true) :
    Memory.wfFrom cap lo' m = true := by
  cases m with
  | nil => rfl
  | cons p m =>
    obtain ⟨h1, h2⟩ := Memory.wfFrom_cons.mp hm
    exact Memory.wfFrom_cons.mpr ⟨h.trans h1, h2⟩

/-- Below its first listed index a canonical memory lists nothing. -/
theorem Memory.read_of_lt {cap lo a : Nat} {m : Memory} (hm : Memory.wfFrom cap lo m = true) (h : a < lo) :
    m.read a = Config.unlistedCell := by
  induction m generalizing lo with
  | nil => rfl
  | cons p m ih =>
    obtain ⟨k, v⟩ := p
    obtain ⟨h1, -, -, h4⟩ := Memory.wfFrom_cons.mp hm
    rw [Memory.read, if_neg (by omega)]
    exact ih h4 (by omega)

/-- A canonical memory of `cap` cells lists no cell from `cap` on. -/
theorem Memory.read_of_ge {cap lo a : Nat} {m : Memory} (hm : Memory.wfFrom cap lo m = true) (h : cap ≤ a) :
    m.read a = Config.unlistedCell := by
  induction m generalizing lo with
  | nil => rfl
  | cons p m ih =>
    obtain ⟨k, v⟩ := p
    obtain ⟨-, h2, -, h4⟩ := Memory.wfFrom_cons.mp hm
    rw [Memory.read, if_neg (by omega)]
    exact ih h4

/-- A write leaves every other cell alone. -/
theorem Memory.read_write_of_ne (m : Memory) {a b : Nat} (v : W16) (h : b ≠ a) : (m.write a v).read b = m.read b := by
  induction m with
  | nil =>
    rw [Memory.write]
    split
    · rfl
    · simp [Memory.read, Ne.symm h]
  | cons p m ih =>
    obtain ⟨k, w⟩ := p
    rw [Memory.write]
    split
    · split
      · rfl
      · simp [Memory.read, Ne.symm h]
    · split
      · rename_i hak
        subst hak
        split <;> simp [Memory.read, Ne.symm h]
      · simp [Memory.read, ih]

/-- A canonical memory reads back what was written. -/
theorem Memory.read_write_self {cap lo a : Nat} {m : Memory} (v : W16) (hm : Memory.wfFrom cap lo m = true) :
    (m.write a v).read a = v := by
  induction m generalizing lo with
  | nil =>
    rw [Memory.write]
    split
    · rename_i hv; simp [hv]
    · simp [Memory.read]
  | cons p m ih =>
    obtain ⟨k, w⟩ := p
    obtain ⟨h1, -, -, h4⟩ := Memory.wfFrom_cons.mp hm
    rw [Memory.write]
    split
    · rename_i hak
      split
      · rename_i hv
        rw [hv, Memory.read, if_neg (by omega)]
        exact Memory.read_of_lt h4 (by omega)
      · simp [Memory.read]
    · split
      · rename_i hak
        subst hak
        split
        · rename_i hv
          rw [hv]
          exact Memory.read_of_lt h4 (by omega)
        · simp [Memory.read]
      · rw [Memory.read, if_neg (by omega)]
        exact ih h4

/-- A write keeps the canonical form. -/
theorem Memory.wfFrom_write {cap lo a : Nat} {m : Memory} (v : W16) (hm : Memory.wfFrom cap lo m = true)
    (hlo : lo ≤ a) (ha : a < cap) : Memory.wfFrom cap lo (m.write a v) = true := by
  induction m generalizing lo with
  | nil =>
    rw [Memory.write]
    split
    · rfl
    · rename_i hv
      exact Memory.wfFrom_cons.mpr ⟨hlo, ha, hv, rfl⟩
  | cons p m ih =>
    obtain ⟨k, w⟩ := p
    obtain ⟨h1, h2, h3, h4⟩ := Memory.wfFrom_cons.mp hm
    rw [Memory.write]
    split
    · split
      · exact hm
      · rename_i hv
        exact Memory.wfFrom_cons.mpr ⟨hlo, ha, hv, Memory.wfFrom_cons.mpr ⟨by omega, h2, h3, h4⟩⟩
    · split
      · rename_i hak
        subst hak
        split
        · exact Memory.wfFrom_mono (by omega) h4
        · rename_i hv
          exact Memory.wfFrom_cons.mpr ⟨hlo, ha, hv, h4⟩
      · exact Memory.wfFrom_cons.mpr ⟨h1, h2, h3, ih h4 (by omega)⟩

theorem Memory.wf_nil (cap : Nat) : Memory.wf cap [] = true := rfl

theorem Memory.wf_write {cap a : Nat} {m : Memory} (v : W16) (hm : m.wf cap = true) (ha : a < cap) :
    (m.write a v).wf cap = true :=
  Memory.wfFrom_write v hm (Nat.zero_le _) ha

/-- An image that fits is a canonical memory. -/
theorem Memory.wfFrom_ofWords {cap i : Nat} {ws : List W16} (h : i + ws.length ≤ cap) :
    Memory.wfFrom cap i (Memory.ofWords i ws) = true := by
  induction ws generalizing i with
  | nil => rfl
  | cons v ws ih =>
    have ht : i + 1 + ws.length ≤ cap := by simp at h; omega
    rw [Memory.ofWords]
    split
    · exact Memory.wfFrom_mono (by omega) (ih ht)
    · rename_i hv
      exact Memory.wfFrom_cons.mpr ⟨le_refl _, by omega, hv, ih ht⟩

theorem Memory.wf_ofWords {cap : Nat} {ws : List W16} (h : ws.length ≤ cap) :
    (Memory.ofWords 0 ws).wf cap = true :=
  Memory.wfFrom_ofWords (by omega)

/-- Cell `a` of an image placed at `i` holds word `a - i`, and every cell outside the image is unlisted. -/
theorem Memory.read_ofWords (i a : Nat) (ws : List W16) :
    (Memory.ofWords i ws).read a = if i ≤ a then ws.getD (a - i) Config.unlistedCell else Config.unlistedCell := by
  induction ws generalizing i with
  | nil => simp [Memory.ofWords]
  | cons v ws ih =>
    have key : (if i = a then v else (Memory.ofWords (i + 1) ws).read a) =
        if i ≤ a then (v :: ws).getD (a - i) Config.unlistedCell else Config.unlistedCell := by
      by_cases hia : i = a
      · subst hia; simp
      · rw [if_neg hia, ih]
        by_cases hle : i ≤ a
        · rw [if_pos hle, if_pos (by omega), show a - i = (a - (i + 1)) + 1 by omega]
          rfl
        · rw [if_neg hle, if_neg (by omega)]
    rw [← key, Memory.ofWords]
    split
    · rename_i hv
      split
      · rename_i hia
        subst hia
        rw [ih, if_neg (by omega), hv]
      · rfl
    · rfl

/-- Canonical memories that read alike are equal data. -/
theorem Memory.ext_read {cap lo : Nat} {m n : Memory} (hm : Memory.wfFrom cap lo m = true)
    (hn : Memory.wfFrom cap lo n = true) (h : ∀ a, m.read a = n.read a) : m = n := by
  induction m generalizing lo n with
  | nil =>
    cases n with
    | nil => rfl
    | cons q n =>
      obtain ⟨k, v⟩ := q
      obtain ⟨-, -, h3, -⟩ := Memory.wfFrom_cons.mp hn
      have := h k
      simp [Memory.read] at this
      exact absurd this.symm h3
  | cons p m ih =>
    obtain ⟨k, v⟩ := p
    obtain ⟨h1, h2, h3, h4⟩ := Memory.wfFrom_cons.mp hm
    cases n with
    | nil =>
      have := h k
      simp [Memory.read] at this
      exact absurd this h3
    | cons q n =>
      obtain ⟨k', v'⟩ := q
      obtain ⟨g1, g2, g3, g4⟩ := Memory.wfFrom_cons.mp hn
      have hk : k = k' := by
        rcases Nat.lt_trichotomy k k' with hlt | heq | hgt
        · have := h k
          rw [Memory.read, if_pos rfl, Memory.read, if_neg (by omega), Memory.read_of_lt g4 (by omega)] at this
          exact absurd this h3
        · exact heq
        · have := h k'
          rw [Memory.read, if_neg (by omega), Memory.read_of_lt h4 (by omega), Memory.read, if_pos rfl] at this
          exact absurd this.symm g3
      subst hk
      have hv : v = v' := by simpa [Memory.read] using h k
      subst hv
      congr 1
      refine ih h4 g4 fun a => ?_
      by_cases hka : k = a
      · subst hka
        rw [Memory.read_of_lt h4 (by omega), Memory.read_of_lt g4 (by omega)]
      · have := h a
        rwa [Memory.read, if_neg hka, Memory.read, if_neg hka] at this

/-- Everything a store through the Memory Bus can do (20_memory.md R57). -/
theorem State.memWrite_cases (s : State) (a v : W16) :
    (a.toNat < 0x4000 ∧ s.memWrite a v = { s with ram := s.ram.write a.toNat v }) ∨
    (0x4000 ≤ a.toNat ∧ a.toNat < 0x6000 ∧
      s.memWrite a v = { s with
        screen := s.screen.write (a.toNat - 0x4000) v
        dirty := s.dirty ++ [BitVec.ofNat 13 (a.toNat - 0x4000)] }) ∨
    (0x6000 ≤ a.toNat ∧ s.memWrite a v = s) := by
  unfold State.memWrite
  simp only [Config.ramWords, Config.screenBase, Config.screenWords]
  by_cases h : a.toNat < 0x4000
  · exact .inl ⟨h, if_pos h⟩
  · rw [if_neg h]
    by_cases h' : a.toNat < 0x4000 + 0x2000
    · exact .inr (.inl ⟨by omega, by omega, if_pos h'⟩)
    · exact .inr (.inr ⟨by omega, if_neg h'⟩)

/-- Everything a read through the Memory Bus can return (20_memory.md R56). -/
theorem State.memRead_cases (s : State) (a : W16) :
    (a.toNat < 0x4000 ∧ s.memRead a = s.ram.read a.toNat) ∨
    (0x4000 ≤ a.toNat ∧ a.toNat < 0x6000 ∧ s.memRead a = s.screen.read (a.toNat - 0x4000)) ∨
    (a.toNat = 0x6000 ∧ s.memRead a = s.kbd) ∨
    (0x6001 ≤ a.toNat ∧ s.memRead a = holeRead) := by
  unfold State.memRead
  simp only [Config.ramWords, Config.screenBase, Config.screenWords, Config.kbdAddr]
  by_cases h : a.toNat < 0x4000
  · exact .inl ⟨h, if_pos h⟩
  · rw [if_neg h]
    by_cases h' : a.toNat < 0x4000 + 0x2000
    · exact .inr (.inl ⟨by omega, by omega, if_pos h'⟩)
    · rw [if_neg h']
      by_cases hk : a.toNat = 0x6000
      · exact .inr (.inr (.inl ⟨hk, if_pos hk⟩))
      · exact .inr (.inr (.inr ⟨by omega, if_neg hk⟩))

/-- What a read returns depends only on RAM, screen and keyboard register; in particular not on ROM (R50). -/
theorem State.memRead_congr {s t : State} (hr : t.ram = s.ram) (hs : t.screen = s.screen) (hk : t.kbd = s.kbd)
    (a : W16) : t.memRead a = s.memRead a := by
  simp [State.memRead, hr, hs, hk]

end Sys2Proof.Machine
end

