-- ==== Sys2Proof/Laws/Engine.lean ====
section
/-! SUPPORT. What each shared operation of the engine can do, said once: retiring, the ALU group, the selection of
an `ExecOne`, one engine step, one tick. -/

namespace Sys2Proof.Machine

/-- Retiring answers the state with the trailing increment and nothing else. -/
theorem retire_eq_next {s t : State} (h : retire s = .next t) : t = s.advance := by
  simpa [retire] using h.symm

/-- Everything an ALU-group word can do (40_alu.md R116). -/
theorem aluGroup_cases {funct : BitVec 3} {rd rs rt : Reg} {s t : State} (h : aluGroup funct rd rs rt s = .next t) :
    (∃ r, alu funct (s.reg rs) (s.reg rt) = .ok r ∧ t = (s.setReg rd r).advance) ∨
    (∃ e, alu funct (s.reg rs) (s.reg rt) = .error e ∧ t = s.raiseError e) := by
  unfold aluGroup at h
  split at h
  · exact .inl ⟨_, ‹_›, retire_eq_next h⟩
  · exact .inr ⟨_, ‹_›, by simpa using h.symm⟩

/-- What the tests of an `ExecOne` found, one case a test (60_exceptions.md R247). -/
theorem State.select_cases (s : State) :
    (s.err ≠ none ∧ s.select = .blocked) ∨
    (s.err = none ∧ 0x8000 ≤ s.pc.toNat ∧ s.select = .raises (.fetchOutOfRom s.pc)) ∨
    (s.err = none ∧ s.pc.toNat < 0x8000 ∧
      ∃ d, decode (s.rom.read s.pc.toNat) = .error d ∧ s.select = .raises (errorOf d)) ∨
    (s.err = none ∧ s.pc.toNat < 0x8000 ∧
      ∃ i, decode (s.rom.read s.pc.toNat) = .ok i ∧ s.select = .runs i) := by
  cases he : s.err with
  | some e => exact .inl ⟨nofun, by simp [State.select, he]⟩
  | none =>
    by_cases hp : s.pc.toNat < 0x8000
    · have hf : s.fetch = .ok (s.rom.read s.pc.toNat) := if_pos hp
      cases hd : decode (s.rom.read s.pc.toNat) with
      | error d => exact .inr (.inr (.inl ⟨rfl, hp, d, rfl, by simp [State.select, he, hf, hd]⟩))
      | ok i => exact .inr (.inr (.inr ⟨rfl, hp, i, rfl, by simp [State.select, he, hf, hd]⟩))
    · have hf : s.fetch = .error (.fetchOutOfRom s.pc) := if_neg hp
      exact .inr (.inl ⟨rfl, by omega, by simp [State.select, he, hf]⟩)

/-- Placing a word where the next fetch reads, in a state with a canonical ROM, makes the step run exactly it. -/
theorem State.placeFetchWord_select {s : State} {w : W16} {i : Instr} (hrom : s.rom.wf Config.romWords = true)
    (hw : decode w = .ok i) : (s.placeFetchWord w).select = .runs i := by
  have hp : (if s.pc.toNat < Config.romWords then s.pc else Config.pcInit).toNat < Config.romWords := by
    split
    · assumption
    · decide
  simp only [State.select, State.fetch, State.placeFetchWord, if_pos hp, Memory.read_write_self w hrom, hw]

theorem step_withFetchWord {s : State} {n w : Nat} {i : Instr} (hrom : s.rom.wf Config.romWords = true)
    (hw : decodeTableWord n w = some i) : step (s.withFetchWord n w) = exec i (s.withFetchWord n w) := by
  have hd : decode (tableWord n w) = .ok i := by
    unfold decodeTableWord at hw
    split at hw
    · simp_all
    · cases hw
  simp only [step, execOne, State.withFetchWord, State.placeFetchWord_select hrom hd]

/-- Everything a tick can do, one case a line of 45_throttle.md R183. -/
theorem tickOp_cases (now : Timestamp) (s : State) :
    ((s.err ≠ none ∨ s.run ≠ .running) ∧ tickOp now s = .next s) ∨
    (s.err = none ∧ s.run = .running ∧ s.base = none ∧ tickOp now s = .next { s with base := some now }) ∨
    (∃ t0, s.err = none ∧ s.run = .running ∧ s.base = some t0 ∧ budget s.freq t0 now ≤ 0 ∧ tickOp now s = .next s) ∨
    (∃ t0, s.err = none ∧ s.run = .running ∧ s.base = some t0 ∧ 0 < budget s.freq t0 now ∧
      tickOp now s = thenNotify (runBatch (budget s.freq t0 now).toNat { s with base := some now })) := by
  unfold tickOp
  by_cases h : s.err ≠ none ∨ s.run ≠ .running
  · exact .inl ⟨h, if_pos h⟩
  · rw [if_neg h]
    simp only [not_or, not_not] at h
    obtain ⟨he, hr⟩ := h
    cases hb : s.base with
    | none => exact .inr (.inl ⟨he, hr, rfl, rfl⟩)
    | some t0 =>
      by_cases hz : budget s.freq t0 now ≤ 0
      · exact .inr (.inr (.inl ⟨t0, he, hr, rfl, hz, if_pos hz⟩))
      · exact .inr (.inr (.inr ⟨t0, he, hr, rfl, by omega, if_neg hz⟩))

end Sys2Proof.Machine
end

