-- ==== Sys2Proof/Laws/Batch.lean ====
section
/-! SUPPORT. Inversion lemmas for batches and for the host operations that execute instructions, and the induction
over a batch, packaged once. -/

namespace Sys2Proof.Machine

/-- Whatever every engine step keeps, a batch keeps. -/
theorem runBatch_keeps {P : State → Prop} (hstep : ∀ s t, P s → step s = .next t → P t) :
    ∀ (n : Nat) (s t : State), P s → runBatch n s = .next t → P t := by
  intro n
  induction n with
  | zero => intro s t hs h; cases h; exact hs
  | succ n ih =>
    intro s t hs h
    cases hu : step s with
    | next u =>
      simp only [runBatch, hu] at h
      split at h
      · exact ih _ _ (hstep _ _ hs hu) h
      · cases h; exact hstep _ _ hs hu
    | fault f => cases f
    | refused r => simp only [runBatch, hu] at h; cases h

/-- An outcome with a notification after it comes from the outcome without. -/
theorem thenNotify_eq_next {o : Host.Outcome State Fault Refusal} {t : State} (h : thenNotify o = .next t) :
    ∃ u, o = .next u ∧ t = u.notified := by
  cases o with
  | next u => exact ⟨u, rfl, by simpa [thenNotify] using h.symm⟩
  | fault f => cases f
  | refused r => cases h

/-- Everything the host's `step` can do (47_host_interface.md R224). -/
theorem stepOp_cases {s t : State} (h : stepOp s = .next t) :
    (s.err ≠ none ∧ t = s) ∨ (s.err = none ∧ ∃ u, step s = .next u ∧ t = u.notified) := by
  unfold stepOp at h
  split at h
  · cases h; exact .inl ⟨‹_›, rfl⟩
  · obtain ⟨u, hu, rfl⟩ := thenNotify_eq_next h
    exact .inr ⟨by simp_all, u, hu, rfl⟩

/-- What a tick leaves, seen from its result. -/
theorem tickOp_eq_next {now : Timestamp} {s t : State} (h : tickOp now s = .next t) :
    t = s ∨ t = { s with base := some now } ∨
      ∃ n u, runBatch n { s with base := some now } = .next u ∧ t = u.notified := by
  rcases tickOp_cases now s with ⟨-, e⟩ | ⟨-, -, -, e⟩ | ⟨-, -, -, -, -, e⟩ | ⟨t0, -, -, -, -, e⟩ <;> rw [e] at h
  · cases h; exact .inl rfl
  · cases h; exact .inr (.inl rfl)
  · cases h; exact .inl rfl
  · obtain ⟨u, hu, rfl⟩ := thenNotify_eq_next h
    exact .inr (.inr ⟨_, u, hu, rfl⟩)

end Sys2Proof.Machine
end

