-- ==== Sys2Proof/Laws/Operands.lean ====
section
/-! SUPPORT. What each operand form and each comparison is, as arithmetic on the readings of 00_scope.md R8. -/

namespace Sys2Proof.Machine

/-- Bit 5 of an immediate is its sign: set exactly from 32 on. -/
theorem getLsbD_five (v : BitVec 6) : v.getLsbD 5 = decide (32 ≤ v.toNat) := by
  have h1 := BitVec.msb_eq_getLsbD_last v
  have h2 := BitVec.msb_eq_decide v
  rw [← h1, h2]

/-- `sext_16(v)` is `W16(s6(v))` (30_encoding.md R88). -/
theorem sext16_toNat (v : BitVec 6) : ((sext16 v).toNat : Int) = signed6 v % 65536 := by
  have hv := v.isLt
  unfold sext16 signed6
  rw [append_toNat, getLsbD_five]
  by_cases h : 32 ≤ v.toNat
  · simp [h]; omega
  · simp [h]; omega

/-- The effective address as a sum modulo 65536 (20_memory.md R55). -/
theorem State.effectiveAddress_toNat (s : State) (rs : Reg) (imm : BitVec 6) :
    ((s.effectiveAddress rs imm).toNat : Int) = (((s.reg rs).toNat : Int) + signed6 imm) % 65536 := by
  have h := sext16_toNat imm
  rw [State.effectiveAddress, BitVec.toNat_add]
  push_cast
  rw [h]
  simp

/-- The branch sum modulo 65536 (42_control_flow.md R130, 10_state.md R28). -/
theorem State.branchPc_toNat (s : State) (imm : BitVec 6) :
    ((s.branchPc imm).toNat : Int) = ((s.pc.toNat : Int) + signed6 imm) % 65536 := by
  have h := sext16_toNat imm
  rw [State.branchPc, BitVec.toNat_add]
  push_cast
  rw [h]
  simp

/-- The page target is the jump's own page and the twelve address bits (42_control_flow.md R132). -/
theorem State.pageTarget_toNat (s : State) (addr : BitVec 12) :
    (s.pageTarget addr).toNat = s.pc.toNat / 4096 * 4096 + addr.toNat := by
  have h : s.pageTarget addr = (s.pc.extractLsb' 12 4 ++ addr : BitVec (4 + 12)) := by
    apply BitVec.eq_of_getLsbD_eq
    intro i hi
    simp only [State.pageTarget, zext16, BitVec.getLsbD_or, BitVec.getLsbD_and, BitVec.getLsbD_append,
      BitVec.getLsbD_extractLsb']
    interval_cases i <;> simp
  rw [h, append_toNat, field_toNat]
  have := s.pc.isLt
  omega

theorem wordsEqual_iff (a b : W16) : wordsEqual a b = true ↔ a = b := by simp [wordsEqual]

theorem signedLess_iff (a b : W16) : signedLess a b = true ↔ a.toInt < b.toInt := by simp [signedLess]

/-- The two outcomes of the shared branch effect. -/
theorem branchIf_cases (c : Bool) (imm : BitVec 6) (s : State) :
    (c = true ∧ branchIf c imm s = s.setPc (s.branchPc imm)) ∨ (c = false ∧ branchIf c imm s = s) := by
  cases c
  · exact .inr ⟨rfl, rfl⟩
  · exact .inl ⟨rfl, rfl⟩

end Sys2Proof.Machine
end

