-- ==== Sys2Proof/Laws/PerInstr.lean ====
section
/-! SUPPORT. Statements made per instruction about the syntax. Family `TableRow`: the canonical word of every
instruction has the fixed bits of its row of spec/opcode_table.json. -/

namespace Sys2Proof.Laws.TableRow

/-- The word of `i` matches `i`'s row: under the row's mask it is the row's match. -/
def Statement (i : Instr) : Prop := encode i &&& tableMask i = tableMatch i

/-- The row check of an R-format word, on the registers' numbers. -/
theorem of_encodeR (rs rt rd : Reg) (funct : BitVec 3) (m : W16) (h : (0#13 ++ funct : BitVec (13 + 3)) = m) :
    encodeR rs rt rd funct &&& 0xF007 = m := by
  subst h
  apply BitVec.eq_of_getLsbD_eq
  intro i hi
  simp only [encodeR, BitVec.getLsbD_and, BitVec.getLsbD_append]
  interval_cases i <;> simp

/-- The row check of an I-format word. -/
theorem of_encodeI (op : BitVec 4) (rs rt : Reg) (imm : BitVec 6) (m : W16) (h : (op ++ 0#12 : BitVec (4 + 12)) = m) :
    encodeI op rs rt imm &&& 0xF000 = m := by
  subst h
  apply BitVec.eq_of_getLsbD_eq
  intro i hi
  simp only [encodeI, BitVec.getLsbD_and, BitVec.getLsbD_append]
  interval_cases i <;> simp

/-- The row check of a J-format word. -/
theorem of_encodeJ (op : BitVec 4) (addr : BitVec 12) (m : W16) (h : (op ++ 0#12 : BitVec (4 + 12)) = m) :
    encodeJ op addr &&& 0xF000 = m := by
  subst h
  apply BitVec.eq_of_getLsbD_eq
  intro i hi
  simp only [encodeJ, BitVec.getLsbD_and, BitVec.getLsbD_append]
  interval_cases i <;> simp

theorem and (rd rs rt : Reg) : Statement (.and rd rs rt) := of_encodeR rs rt rd 0#3 _ rfl
theorem or (rd rs rt : Reg) : Statement (.or rd rs rt) := of_encodeR rs rt rd 1#3 _ rfl
theorem add (rd rs rt : Reg) : Statement (.add rd rs rt) := of_encodeR rs rt rd 2#3 _ rfl
theorem sub (rd rs rt : Reg) : Statement (.sub rd rs rt) := of_encodeR rs rt rd 6#3 _ rfl
theorem slt (rd rs rt : Reg) : Statement (.slt rd rs rt) := of_encodeR rs rt rd 7#3 _ rfl
theorem lw (rt rs : Reg) (imm : BitVec 6) : Statement (.lw rt rs imm) := of_encodeI 0x1#4 rs rt imm _ rfl
theorem sw (rt rs : Reg) (imm : BitVec 6) : Statement (.sw rt rs imm) := of_encodeI 0x2#4 rs rt imm _ rfl
theorem beq (rs rt : Reg) (imm : BitVec 6) : Statement (.beq rs rt imm) := of_encodeI 0x3#4 rs rt imm _ rfl
theorem j (addr : BitVec 12) : Statement (.j addr) := of_encodeJ 0x4#4 addr _ rfl
theorem addi (rt rs : Reg) (imm : BitVec 6) : Statement (.addi rt rs imm) := of_encodeI 0x5#4 rs rt imm _ rfl
theorem bne (rs rt : Reg) (imm : BitVec 6) : Statement (.bne rs rt imm) := of_encodeI 0x6#4 rs rt imm _ rfl
theorem jr (rs : Reg) : Statement (.jr rs) := of_encodeI 0x7#4 rs .r0 0#6 _ rfl
theorem jal (addr : BitVec 12) : Statement (.jal addr) := of_encodeJ 0x8#4 addr _ rfl
theorem display : Statement .display := of_encodeJ 0xF#4 0#12 _ rfl
theorem halt : Statement .halt := rfl

end Sys2Proof.Laws.TableRow
end

