-- ==== Sys2Proof/Tests/Slice0.lean ====
section
/-! SUPPORT. The model's own tests. Expected values come from spec/95_test_vectors.md (the table is named at each
group) or from the rule a test names. Below them stand the witnesses: for every statement with hypotheses, concrete
values that meet them. -/

namespace Sys2Proof.Tests

open Sys2Proof.Machine

/-- The next state of an outcome. -/
def nextOf (o : Host.Outcome State Fault Refusal) : State :=
  match o with
  | .next t => t
  | _ => State.reset

/-- The reset state with registers 1 and 2 preset. -/
def withR12 (a b : W16) : State := (State.reset.setReg .r1 a).setReg .r2 b

/-- The reset state about to fetch `w` at index `p`, registers 1 and 2 preset. -/
def fetching (p w a b : W16) : State :=
  { withR12 a b with pc := p, rom := [(p.toNat, w)] }

/-- The state of table 2.5 of the vectors. -/
def busState (a : W16) : State :=
  { withR12 a 0xDEAD with
    ram := [(0x3FFF, 0x1111)], screen := [(0, 0x2222), (0x1FFF, 0x3333)], kbd := 0x0041 }

/-- A running state about to fetch `w` at index 3, as in table 2.10 of the vectors. -/
def erring (w : W16) : State := { fetching 3 w 0x1111 0 with run := .running }

/-- A state with an error latched. -/
def latched : State := (erring 0x5041).raiseError (.invalidOpcode 9)

/-! ### WellFormed: the one check, with an ill-formed term that it refuses -/

theorem test_wf_refuses_and_r0_r0_r0 : ¬WellFormed (.and .r0 .r0 .r0) := by decide
theorem test_wf_accepts_and_r1_r0_r0 : WellFormed (.and .r1 .r0 .r0) := by decide

/-! ### Decoding: words written out from 30_encoding.md R84 to R94 (table 2.1 of the vectors has most of them) -/

theorem test_decode_and : decode 0b0000_001_010_011_000#16 = .ok (.and .r3 .r1 .r2) := by decide
theorem test_decode_or : decode 0b0000_001_010_011_001#16 = .ok (.or .r3 .r1 .r2) := by decide
theorem test_decode_add : decode 0b0000_001_010_011_010#16 = .ok (.add .r3 .r1 .r2) := by decide
theorem test_decode_sub : decode 0b0000_001_010_011_110#16 = .ok (.sub .r3 .r1 .r2) := by decide
theorem test_decode_slt : decode 0b0000_010_001_011_111#16 = .ok (.slt .r3 .r2 .r1) := by decide
theorem test_decode_lw : decode 0b0001_001_010_000010#16 = .ok (.lw .r2 .r1 2) := by decide
theorem test_decode_sw : decode 0b0010_000_011_000000#16 = .ok (.sw .r3 .r0 0) := by decide
theorem test_decode_beq : decode 0b0011_001_010_000010#16 = .ok (.beq .r1 .r2 2) := by decide
theorem test_decode_j : decode 0b0100_101010111100#16 = .ok (.j 0xABC) := by decide
theorem test_decode_addi : decode 0b0101_000_001_000101#16 = .ok (.addi .r1 .r0 5) := by decide
theorem test_decode_bne : decode 0b0110_001_000_111101#16 = .ok (.bne .r1 .r0 0x3D) := by decide
theorem test_decode_jr_ignores : decode 0b0111_111_111111111#16 = .ok (.jr .r7) := by decide
theorem test_decode_jal : decode 0b1000_000000000101#16 = .ok (.jal 5) := by decide
theorem test_decode_display_ignores : decode 0b1111_101010111100#16 = .ok .display := by decide
theorem test_decode_halt : decode 0b0000_000_000_000_000#16 = .ok .halt := by decide
theorem test_decode_illegal_op : decode 0xEFFF = .error (.invalidOpcode 0xE) := by decide
theorem test_decode_illegal_funct : decode 0x0FFD = .error (.invalidALUFunction 5) := by decide
theorem test_decodeTableWord_rejects : decodeTableWord 16 0x9000 = none := by decide

/-! ### Instructions (tables 2.3 to 2.7 and 2.9 of the vectors) -/

theorem test_and : (nextOf (exec (.and .r3 .r1 .r2) (withR12 0xF0F0 0x0FF0))).reg .r3 = 0x00F0 := by decide
theorem test_or : (nextOf (exec (.or .r3 .r1 .r2) (withR12 0xF0F0 0x0FF0))).reg .r3 = 0xFFF0 := by decide
theorem test_add_wraps : (nextOf (exec (.add .r3 .r1 .r2) (withR12 0x7FFF 1))).reg .r3 = 0x8000 := by decide
theorem test_add_r0_writable : (nextOf (exec (.add .r0 .r1 .r2) (withR12 2 3))).reg .r0 = 5 := by decide
theorem test_sub_order : (nextOf (exec (.sub .r3 .r1 .r2) (withR12 3 5))).reg .r3 = 0xFFFE := by decide
theorem test_slt_signed : (nextOf (exec (.slt .r3 .r1 .r2) (withR12 0x8000 0x7FFF))).reg .r3 = 1 := by decide
theorem test_slt_no_shortcut : (nextOf (exec (.slt .r3 .r1 .r2) (withR12 0x7FFF 0x8000))).reg .r3 = 0 := by decide
theorem test_addi_negative : (nextOf (exec (.addi .r1 .r1 0x20) (withR12 0x8000 0))).reg .r1 = 0x7FE0 := by decide
theorem test_lw_screen_by_offset : (nextOf (exec (.lw .r2 .r1 0x1F) (busState 0x5FE0))).reg .r2 = 0x3333 := by decide
theorem test_lw_keyboard : (nextOf (exec (.lw .r2 .r1 1) (busState 0x5FFF))).reg .r2 = 0x0041 := by decide
theorem test_sw_last_screen_cell :
    (nextOf (exec (.sw .r2 .r1 0) (withR12 0x5FFF 0xBEEF))).screen = [(0x1FFF, 0xBEEF)] ∧
    (nextOf (exec (.sw .r2 .r1 0) (withR12 0x5FFF 0xBEEF))).dirty = [8191] := by decide
theorem test_sw_keyboard_dropped :
    nextOf (exec (.sw .r2 .r1 0) (withR12 0x6000 0xBEEF)) = (withR12 0x6000 0xBEEF).advance := by decide
theorem test_beq_taken : (nextOf (exec (.beq .r1 .r2 2) { withR12 7 7 with pc := 10 })).pc = 13 := by decide
theorem test_beq_back_wraps : (nextOf (exec (.beq .r1 .r2 0x20) { withR12 7 7 with pc := 5 })).pc = 0xFFE6 := by decide
theorem test_bne_taken : (nextOf (exec (.bne .r1 .r0 0x3D) { withR12 4 0 with pc := 4 })).pc = 2 := by decide
theorem test_bne_not_taken : (nextOf (exec (.bne .r1 .r2 2) { withR12 7 7 with pc := 10 })).pc = 11 := by decide
theorem test_j_page : (nextOf (exec (.j 0xABC) { State.reset with pc := 0x1234 })).pc = 0x1ABC := by decide
theorem test_j_zero : (nextOf (exec (.j 0) { State.reset with pc := 0x0123 })).pc = 0 := by decide
theorem test_jr_lands_past : (nextOf (exec (.jr .r1) (withR12 0x1233 0))).pc = 0x1234 := by decide
theorem test_jal_links_itself :
    (nextOf (exec (.jal 0xABC) { State.reset with pc := 0x1234 })).reg .r7 = 0x1234 ∧
    (nextOf (exec (.jal 0xABC) { State.reset with pc := 0x1234 })).pc = 0x1ABC := by decide
theorem test_display_colours_at_flush :
    (nextOf (exec .display { State.reset with screen := [(5, 0x001F), (6, 0xFFFF)], dirty := [5, 6, 5] })).sink =
      [[⟨5, 0, 0, 0, 248⟩, ⟨6, 0, 248, 252, 248⟩, ⟨5, 0, 0, 0, 248⟩]] := by decide
theorem test_display_empty : (nextOf (exec .display State.reset)).sink = [[]] := by decide
theorem test_halt_keeps_pc :
    (nextOf (exec .halt { State.reset with pc := 7, run := .running, dirty := [3] })) =
      { State.reset with pc := 7, run := .halted, dirty := [3] } := by decide

/-! ### Operands, colours, coordinates (tables 2.2 and 2.8 of the vectors) -/

theorem test_sext16 : sext16 0x1F = 0x001F ∧ sext16 0x20 = 0xFFE0 ∧ sext16 0x3D = 0xFFFD := by decide
theorem test_colour : redOf 0xABCD = 168 ∧ greenOf 0xABCD = 120 ∧ blueOf 0xABCD = 104 := by decide
theorem test_coordinates : columnOf 8191 = 127 ∧ rowOf 8191 = 63 ∧ columnOf 129 = 1 ∧ rowOf 129 = 1 := by decide
theorem test_alu_illegal : alu 5#3 0 0 = .error (.invalidALUFunction 5) := by decide

/-! ### The step (table 2.10 of the vectors) and withFetchWord -/

theorem test_step_illegal_op :
    nextOf (step (erring 0xEFFF)) = (erring 0xEFFF).raiseError (.invalidOpcode 0xE) := by decide
theorem test_step_illegal_funct :
    nextOf (step (erring 0x0003)) = (erring 0x0003).raiseError (.invalidALUFunction 3) := by decide
theorem test_step_out_of_rom :
    (nextOf (step { erring 0 with pc := 0x8000 })).err = some (.fetchOutOfRom 0x8000) := by decide
theorem test_step_off_the_end :
    (nextOf (step (fetching 0x7FFF 0x5041 0 0))).pc = 0x8000 := by decide
theorem test_step_blocked : nextOf (step latched) = latched := by decide
theorem test_reset_step_halts : (nextOf (step State.reset)).run = .halted := by decide
theorem test_withFetchWord_runs : (nextOf (step (State.reset.withFetchWord 16 0x5045))).reg .r1 = 5 := by decide

/-! ### The throttle and the host's operations (S10, S11, traces H1 and H2 of the vectors) -/

/-- Ten seconds. -/
def at10 : Timestamp := ⟨10, 1, by decide, by decide⟩
/-- 81/8 seconds. -/
def at81_8 : Timestamp := ⟨81, 8, by decide, by decide⟩
/-- 161/16 seconds. -/
def at161_16 : Timestamp := ⟨161, 16, by decide, by decide⟩
/-- 21/2 seconds. -/
def at21_2 : Timestamp := ⟨21, 2, by decide, by decide⟩
/-- 10.00001 seconds. -/
def at10_00001 : Timestamp := ⟨1000001, 100000, by decide, by decide⟩

theorem test_budget : budget 8192 at10 at21_2 = 4096 ∧ budget 8192 at10 at10_00001 = 0 := by decide
theorem test_budget_backwards : budget 8 at81_8 at10 = -1 := by decide

/-- Rows 1, 2, 4 to 7 of trace H1. -/
def h1Rows : List HostOp :=
  [.load .rom [0x5045, 0x5080, 0x0452, 0x527F, 0x623D, 0x2090, 0x0000], .setFrequency 8, .start, .tick at10,
    .tick at161_16, .tick at81_8]

theorem test_h1 :
    (nextOf (hostRun h1Rows State.reset)).pc = 1 ∧ (nextOf (hostRun h1Rows State.reset)).notify = 2 ∧
    (nextOf (hostRun h1Rows State.reset)).base = some at81_8 ∧
    (nextOf (hostRun h1Rows State.reset)).run = .running := by decide
theorem test_reset_keeps :
    nextOf (hostStep .reset { latched with dirty := [5], screen := [(5, 0xFFFF)], ram := [(0, 8)], kbd := 0x20 }) =
      { latched with
        dirty := [5], screen := [(5, 0xFFFF)], ram := [], kbd := 0x20, regs := Regs.reset, pc := 0,
        run := .idle, err := none, notify := 1 } := by decide
theorem test_load_zero_fill :
    (nextOf (hostStep (.load .ram [0x1111, 0, 0x2222]) { State.reset with ram := [(0x3FFF, 0xABCD)] })).ram =
      [(0, 0x1111), (2, 0x2222)] := by decide
theorem test_setCell_out_of_bounds : nextOf (hostStep (.setCell .ram 0x4000 1) State.reset) = State.reset := by decide

/-! ### Witnesses: the hypotheses of the statements can be met -/

theorem witness_DecodeOfEncode : WellFormed (.sw .r7 .r6 0x3F) := by decide
theorem witness_EncodeOfDecode :
    decode 0x7FFF = .ok (.jr .r7) ∧ decode 0xFABC = .ok .display ∧ decode 0x0008 = .ok (.and .r1 .r0 .r0) := by decide
theorem witness_AndRunsWithFrame : ¬(Reg.r0 = .r0 ∧ Reg.r0 = .r0 ∧ Reg.r1 = .r0) := by decide

/-- LW: an address in each region, at its boundaries, with what each clause then says. -/
theorem witness_LwRunsWithFrame :
    (nextOf (exec (.lw .r2 .r1 0x3F) (busState 0x4000))).reg .r2 = 0x1111 ∧
    (nextOf (exec (.lw .r2 .r1 0) (busState 0x4000))).reg .r2 = 0x2222 ∧
    (nextOf (exec (.lw .r2 .r1 0) (busState 0x5FFF))).reg .r2 = 0x3333 ∧
    (nextOf (exec (.lw .r2 .r1 0) (busState 0x6000))).reg .r2 = 0x0041 ∧
    (nextOf (exec (.lw .r2 .r1 0) (busState 0x6001))).reg .r2 = 0x0000 ∧
    ((0x3FFF : Nat) : Int) = (((busState 0x4000).reg .r1).toNat + (((0x3F#6).toNat : Int) - 64)) % 65536 := by decide

theorem witness_inv_busState : Inv (busState 0x4000) := ⟨by decide, by decide, by decide, fun h => absurd rfl h⟩

/-- SW: each clause at the boundaries of its range, in a state that meets the invariant. -/
theorem witness_SwRunsWithFrame :
    ((busState 0x3FFF).effectiveAddress .r1 0).toNat < 0x4000 ∧
    0x4000 ≤ ((busState 0x3FFF).effectiveAddress .r1 1).toNat ∧
    ((busState 0x5FFF).effectiveAddress .r1 0).toNat < 0x6000 ∧
    0x6000 ≤ ((busState 0x5FFF).effectiveAddress .r1 1).toNat ∧
    (0x4001 : W16) ≠ (busState 0x4000).effectiveAddress .r1 0 := by decide

theorem witness_BeqRunsWithFrame :
    ((withR12 7 7).reg .r1).toNat = ((withR12 7 7).reg .r2).toNat ∧
    ((withR12 7 8).reg .r1).toNat ≠ ((withR12 7 8).reg .r2).toNat := by decide
theorem witness_BneRunsWithFrame :
    ((withR12 1 0xFFFF).reg .r1).toNat ≠ ((withR12 1 0xFFFF).reg .r2).toNat ∧
    ((withR12 0 0).reg .r1).toNat = ((withR12 0 0).reg .r2).toNat := by decide
theorem witness_DisplayRunsWithFrame :
    ([8191, 0] : List Offset)[0]? = some 8191 ∧
    (([8191, 0] : List Offset).map (pixelEvent [(0x1FFF, 0xFFFF)]))[0]? = some ⟨127, 63, 248, 252, 248⟩ := by decide

theorem witness_StepRunsDecodedInstruction :
    (fetching 0x7FFF 0x5041 0 0).err = none ∧ (fetching 0x7FFF 0x5041 0 0).pc.toNat < 0x8000 ∧
    decode ((fetching 0x7FFF 0x5041 0 0).rom.read (fetching 0x7FFF 0x5041 0 0).pc.toNat) = .ok (.addi .r1 .r0 1) := by
  decide
theorem witness_StepIsPrecise :
    step latched = .next latched ∧
    step (erring 0x9000) = .next ((erring 0x9000).raiseError (.invalidOpcode 9)) ∧
    step State.reset = .next { State.reset with run := .halted } ∧
    (erring 0x5041).execOutcome = .retired := ⟨rfl, rfl, rfl, by decide⟩
theorem witness_FetchOutsideRomTakesError :
    ({ State.reset with pc := 0x8000 } : State).err = none ∧
    0x8000 ≤ ({ State.reset with pc := 0x8000 } : State).pc.toNat := by decide
theorem witness_IllegalOpcodeTakesError :
    (erring 0x9000).err = none ∧ (erring 0x9000).pc.toNat < 0x8000 ∧
    0x9000 ≤ ((erring 0x9000).rom.read (erring 0x9000).pc.toNat).toNat ∧
    ((erring 0xEFFF).rom.read (erring 0xEFFF).pc.toNat).toNat ≤ 0xEFFF := by decide
theorem witness_IllegalFunctionTakesError :
    (erring 0x0FFB).err = none ∧ (erring 0x0FFB).pc.toNat < 0x8000 ∧
    ((erring 0x0FFB).rom.read (erring 0x0FFB).pc.toNat).toNat < 0x1000 ∧
    3 ≤ ((erring 0x0FFB).rom.read (erring 0x0FFB).pc.toNat).toNat % 8 ∧
    ((erring 0x0FFD).rom.read (erring 0x0FFD).pc.toNat).toNat % 8 ≤ 5 := by decide
theorem witness_LatchedErrorBlocks : latched.err ≠ none := by decide
theorem witness_OnlyResetClearsErrorLatch :
    (latched.err ≠ none ∧ (nextOf (hostStep .stop latched)).err ≠ none) ∧
    (nextOf (hostStep .reset latched)).err = none ∧
    ((erring 0x9000).err = none ∧ (nextOf (hostStep .step (erring 0x9000))).err ≠ none) := by decide

theorem witness_StepKeepsInvariant : Inv latched ∧ step latched = .next latched :=
  ⟨⟨by decide, by decide, by decide, fun _ => rfl⟩, rfl⟩
theorem witness_HostOperationKeepsInvariant :
    Inv (busState 0x4000) ∧ ∃ t, hostStep (.load .rom [0x5045, 0, 1]) (busState 0x4000) = .next t :=
  ⟨witness_inv_busState, _, rfl⟩
theorem witness_SinkColoursStayConverted :
    SinkConverted State.reset ∧ ∃ t, step (fetching 0 0xF000 0 0) = .next t ∧ t.sink = [[]] :=
  ⟨fun _ h => absurd h (by simp [State.reset, State.powerOn]), _, rfl, by decide⟩
theorem witness_OnlyLoadAndEditChangeRom :
    ∃ t, hostStep (.setCell .rom 1 0xF000) State.reset = .next t ∧ t.rom ≠ State.reset.rom := ⟨_, rfl, by decide⟩
theorem witness_OnlyHostSetsKeyboard :
    ∃ t, hostStep (.setKeyboardValue 0x41) State.reset = .next t ∧ t.kbd ≠ State.reset.kbd := ⟨_, rfl, by decide⟩
theorem witness_HostOperationsCannotReachScreenOrRegisters :
    (∃ t, hostStep .start State.reset = .next t) ∧ HostOp.start ≠ .step ∧ ∀ now, HostOp.start ≠ .tick now :=
  ⟨⟨_, rfl⟩, by decide, by simp⟩
theorem witness_RegisterWritersAreTheListedOnes :
    ∃ t, exec (.jal 5) { State.reset with pc := 1 } = .next t ∧ t.reg .r7 ≠ State.reset.reg .r7 := ⟨_, rfl, by decide⟩
theorem witness_RegisterReadersAreTheListedOnes :
    (Reg.r7 ≠ .r1 ∧ Reg.r7 ≠ .r2) ∧ ∃ t, exec (.sw .r2 .r1 0) (busState 0x4000) = .next t := ⟨by decide, _, rfl⟩
theorem witness_NextPcTable : ∃ t, exec (.beq .r1 .r2 0x20) { withR12 7 7 with pc := 0x64 } = .next t ∧ t.pc = 0x45 :=
  ⟨_, rfl, by decide⟩
theorem witness_ControlStateIsInvisibleToPrograms :
    ∃ s' u', step (erring 0x5041) = .next s' ∧
      step { erring 0x5041 with run := .idle, freq := 9, dirty := [3], notify := 4 } = .next u' := ⟨_, _, rfl, rfl⟩
theorem witness_LoadReturnsLatestStore :
    Inv (busState 0) ∧ (0x5FFF : W16).toNat < 0x6000 ∧ (0x3FFF : W16) ≠ 0x4000 ∧ 0x6000 ≤ (0x6000 : W16).toNat :=
  ⟨⟨by decide, by decide, by decide, fun h => absurd rfl h⟩, by decide, by decide, by decide⟩
theorem witness_DirtySetTracksScreenStores :
    ∃ t, exec (.sw .r2 .r1 0) (withR12 0x4000 1) = .next t ∧ t.dirty = [0] := ⟨_, rfl, by decide⟩
theorem witness_FlushPaintsCurrentScreen :
    (5 : Offset) ∈ ({ State.reset with dirty := [5, 6, 5] } : State).dirty ∧
    ∃ t, exec .display { State.reset with dirty := [5, 6, 5] } = .next t := ⟨by decide, _, rfl⟩
theorem witness_PixelTraceIsAppendOnly :
    (∃ t, step (fetching 0 0xF000 0 0) = .next t) ∧ ∃ t, hostStep .step (fetching 0 0xF000 0 0) = .next t :=
  ⟨⟨_, rfl⟩, _, rfl⟩

/-- A call at index 1 of a subroutine at index 5 that is one `JR R7`. -/
def callState : State := { State.reset with pc := 1, rom := [(1, 0x8005), (5, 0x7E00)] }

theorem witness_CallThenReturnLandsAfterCall :
    callState.err = none ∧ callState.pc.toNat < 0x8000 ∧
    callState.rom.read callState.pc.toNat = (0b1000#4 ++ 5#12 : BitVec (4 + 12)) ∧
    callState.rom.read (callState.pc.toNat / 4096 * 4096 + (5#12).toNat) = 0x7E00 := by decide
theorem witness_BatchesCompose : ∃ t, runBatch 1 (erring 0x5041) = .next t := ⟨_, rfl⟩

/-- A running state at frequency 8 with a baseline of ten seconds. -/
def ticking : State := { erring 0x5041 with freq := 8, base := some at10 }

theorem witness_TickFollowsItsListing :
    (State.reset.err ≠ none ∨ State.reset.run ≠ .running) ∧
    ((erring 0x5041).err = none ∧ (erring 0x5041).run = .running ∧ (erring 0x5041).base = none) ∧
    (ticking.err = none ∧ ticking.run = .running ∧ ticking.base = some at10) ∧
    ⌊(ticking.freq : Rat) * (at161_16.seconds - at10.seconds)⌋ ≤ 0 ∧
    0 < ⌊(ticking.freq : Rat) * (at81_8.seconds - at10.seconds)⌋ := by
  refine ⟨by decide, by decide, by decide, ?_, ?_⟩ <;>
    norm_num [ticking, Timestamp.seconds, at10, at161_16, at81_8]
theorem witness_SingleStepIsOneExecOne :
    (erring 0x5041).err = none ∧ (∃ u, step (erring 0x5041) = .next u) ∧ (erring 0x5041).execOutcome = .retired :=
  ⟨by decide, ⟨_, rfl⟩, by decide⟩
theorem witness_StartAndStopMoveTheRunState :
    (State.reset.err = none ∧ State.reset.run ≠ .running) ∧ latched.err ≠ none ∧ (erring 0).run = .running := by decide
theorem witness_LoadReplacesRegionOrFails :
    (List.replicate 2 (0xF000 : W16)).length ≤ 16384 ∧ 16384 < (List.replicate 16385 (0xF000 : W16)).length :=
  ⟨by decide, by rw [List.length_replicate]; decide⟩
theorem witness_SetCellEditsOneCell : Inv (busState 0) ∧ 0x3FFF < 16384 ∧ 16384 ≤ 0x4000 :=
  ⟨⟨by decide, by decide, by decide, fun h => absurd rfl h⟩, by decide, by decide⟩
theorem witness_NotificationPoints :
    ∃ t, hostStep (.tick at81_8) ticking = .next t ∧ t.notify = ticking.notify + 1 := ⟨_, rfl, by decide⟩

end Sys2Proof.Tests
end

/-! ## Scope: which words are rejected, and that everything completes -/

namespace Sys2Proof

/-! ### What the decoder rejects (30_encoding.md R92, R93) -/

/-- The opcode field as arithmetic (30_encoding.md R81). -/
theorem decodeFields_op_toNat (w : W16) : (decodeFields w).op.toNat = w.toNat / 4096 := by
  have hw := w.isLt
  simp only [decodeFields, field_toNat]
  omega

/-- The function-code field as arithmetic (30_encoding.md R81). -/
theorem decodeFields_funct_toNat (w : W16) : (decodeFields w).funct.toNat = w.toNat % 8 := by
  simp only [decodeFields, field_toNat]
  omega

/-- The three holes of the function-code table (30_encoding.md R91, R93). -/
theorem decodeAlu_eq_error_iff (f : Fields) (d : DecodeError) :
    decodeAlu f = .error d ↔
      (f.funct.toNat = 3 ∨ f.funct.toNat = 4 ∨ f.funct.toNat = 5) ∧ d = .invalidALUFunction f.funct := by
  have hlt := f.funct.isLt
  unfold decodeAlu
  split
  case h_6 =>
    simp only [imp_false] at *
    have hhole : f.funct.toNat = 3 ∨ f.funct.toNat = 4 ∨ f.funct.toNat = 5 := by omega
    simp [hhole, @eq_comm _ d]
  all_goals simp [*]

/-- The opcode table rejects by function code under opcode 0x0, and by opcode in its hole 0x9 to 0xE
(30_encoding.md R90, R92). -/
theorem decodeOp_eq_error_iff (f : Fields) (d : DecodeError) :
    decodeOp f = .error d ↔
      (f.op.toNat = 0 ∧ decodeAlu f = .error d) ∨
      (9 ≤ f.op.toNat ∧ f.op.toNat ≤ 14 ∧ d = .invalidOpcode f.op) := by
  have hlt := f.op.isLt
  unfold decodeOp
  split
  case h_11 =>
    simp only [imp_false] at *
    have hhole : f.op.toNat ≠ 0 ∧ 9 ≤ f.op.toNat ∧ f.op.toNat ≤ 14 := by omega
    simp [hhole, @eq_comm _ d]
  all_goals simp [*]

/-- The halt test hides no rejection: the sentinel's own fields are those of an AND. -/
theorem decode_eq_error_iff (w : W16) (d : DecodeError) :
    decode w = .error d ↔ decodeOp (decodeFields w) = .error d := by
  by_cases h : w = Config.haltWord
  · subst h
    exact ⟨nofun, nofun⟩
  · rw [decode_of_ne h]

/-- The words rejected for their opcode, with the field the error carries (30_encoding.md R92). -/
theorem decode_eq_invalidOpcode_iff (w : W16) (op : BitVec 4) :
    decode w = .error (.invalidOpcode op) ↔
      0x9000 ≤ w.toNat ∧ w.toNat ≤ 0xEFFF ∧ op.toNat = w.toNat / 4096 := by
  rw [decode_eq_error_iff, decodeOp_eq_error_iff, decodeAlu_eq_error_iff, DecodeError.invalidOpcode.injEq,
    ← BitVec.toNat_inj, decodeFields_op_toNat]
  simp only [reduceCtorEq, and_false, false_or]
  omega

/-- The words rejected for their function code, with the field the error carries (30_encoding.md R93). -/
theorem decode_eq_invalidALUFunction_iff (w : W16) (funct : BitVec 3) :
    decode w = .error (.invalidALUFunction funct) ↔
      w.toNat < 0x1000 ∧ (w.toNat % 8 = 3 ∨ w.toNat % 8 = 4 ∨ w.toNat % 8 = 5) ∧
        funct.toNat = w.toNat % 8 := by
  rw [decode_eq_error_iff, decodeOp_eq_error_iff, decodeAlu_eq_error_iff, DecodeError.invalidALUFunction.injEq,
    ← BitVec.toNat_inj, decodeFields_op_toNat, decodeFields_funct_toNat]
  simp only [reduceCtorEq, and_false, or_false]
  omega

/-- Settles O5: the holes of the two tables, read as ranges of the word. -/
theorem rejectedWordsAreTheIllegalOnes : Obligations.RejectedWordsAreTheIllegalOnes :=
  fun w => ⟨decode_eq_invalidOpcode_iff w, decode_eq_invalidALUFunction_iff w⟩

end Sys2Proof

namespace Sys2Proof.Machine

/-! ### Everything answers a next state (00_scope.md R12) -/

/-- Everything an engine step can do, one case a selection (44_engine.md R152). -/
theorem step_cases (s : State) :
    (s.select = .blocked ∧ step s = .next s) ∨
    (∃ e, s.select = .raises e ∧ step s = .next (s.raiseError e)) ∨
    (∃ i, s.select = .runs i ∧ step s = exec i s) := by
  unfold step execOne
  cases s.select with
  | blocked => exact .inl ⟨rfl, rfl⟩
  | raises e => exact .inr (.inl ⟨e, rfl, rfl⟩)
  | runs i => exact .inr (.inr ⟨i, rfl, rfl⟩)

/-- The ALU group completes for every function code: an ALU error is taken as a next state (40_alu.md R116). -/
theorem aluGroup_completes (funct : BitVec 3) (rd rs rt : Reg) (s : State) :
    ∃ t, aluGroup funct rd rs rt s = .next t := by
  unfold aluGroup
  cases alu funct (s.reg rs) (s.reg rt) with
  | ok r => exact ⟨_, rfl⟩
  | error e => exact ⟨_, rfl⟩

/-- Every instruction completes: the ALU group does, HALT answers at once, and every other one retires. -/
theorem exec_completes (i : Instr) (s : State) : ∃ t, exec i s = .next t := by
  cases i with
  | and rd rs rt => exact aluGroup_completes 0#3 rd rs rt s
  | or rd rs rt => exact aluGroup_completes 1#3 rd rs rt s
  | add rd rs rt => exact aluGroup_completes 2#3 rd rs rt s
  | sub rd rs rt => exact aluGroup_completes 6#3 rd rs rt s
  | slt rd rs rt => exact aluGroup_completes 7#3 rd rs rt s
  | lw | sw | beq | j | addi | bne | jr | jal | display | halt => exact ⟨_, rfl⟩

/-- Every engine step completes, errors included (60_exceptions.md R244). -/
theorem step_completes (s : State) : ∃ t, step s = .next t := by
  rcases step_cases s with ⟨-, h⟩ | ⟨e, -, h⟩ | ⟨i, -, h⟩
  · exact ⟨_, h⟩
  · exact ⟨_, h⟩
  · rw [h]
    exact exec_completes i s

/-- A batch of any size completes from any state (44_engine.md R157). -/
theorem runBatch_completes (n : Nat) (s : State) : ∃ t, runBatch n s = .next t := by
  induction n generalizing s with
  | zero => exact ⟨s, rfl⟩
  | succ n ih =>
    obtain ⟨u, hu⟩ := step_completes s
    simp only [runBatch, hu]
    split
    · exact ih u
    · exact ⟨u, rfl⟩

/-- A notification does not stop an operation that completes. -/
theorem thenNotify_completes {o : Host.Outcome State Fault Refusal} (h : ∃ t, o = .next t) :
    ∃ t, thenNotify o = .next t := by
  obtain ⟨t, rfl⟩ := h
  exact ⟨t.notified, rfl⟩

/-- Every tick completes, in each line of 45_throttle.md R183. -/
theorem tickOp_completes (now : Timestamp) (s : State) : ∃ t, tickOp now s = .next t := by
  rcases tickOp_cases now s with ⟨-, h⟩ | ⟨-, -, -, h⟩ | ⟨-, -, -, -, -, h⟩ | ⟨t0, -, -, -, -, h⟩
  · exact ⟨_, h⟩
  · exact ⟨_, h⟩
  · exact ⟨_, h⟩
  · rw [h]
    exact thenNotify_completes (runBatch_completes _ _)

/-- The host's single step completes (47_host_interface.md R224). -/
theorem stepOp_completes (s : State) : ∃ t, stepOp s = .next t := by
  unfold stepOp
  split
  · exact ⟨s, rfl⟩
  · exact thenNotify_completes (step_completes s)

/-- Every host operation completes (47_host_interface.md R215). -/
theorem hostStep_completes (op : HostOp) (s : State) : ∃ t, hostStep op s = .next t := by
  cases op with
  | tick now => exact tickOp_completes now s
  | step => exact stepOp_completes s
  | load | setCell | setKeyboardValue | start | stop | reset | setFrequency => exact ⟨_, rfl⟩

/-- Settles O22: by the instruction's case, by the step's selection, and by induction on the batch of a tick. -/
theorem everythingAnswersNextState : Obligations.EverythingAnswersNextState :=
  ⟨exec_completes, step_completes, hostStep_completes⟩

end Sys2Proof.Machine

/-! ## The state: what each operation may change, what it never changes (10_state.md) -/

namespace Sys2Proof.Machine

/-! ### An engine step as an effect

What an instruction computes (`effectOf`, the read half of R24) is kept apart from the one update it then makes
(`Effect.apply`). A rule about writes is a case split on the few effects, and a rule about reads is an equation
between effects. -/

/-- The update an engine step makes. -/
inductive Effect where
  /-- Nothing: the engine is blocked by its latch. -/
  | stay
  /-- A register write (ALU group, ADDI, LW). -/
  | write (r : Reg) (v : W16)
  /-- A store through the Memory Bus (SW). -/
  | store (a v : W16)
  /-- A write to `pc` alone (branches, J, JR); a branch not taken writes back the `pc` it has. -/
  | jump (p : W16)
  /-- The link and the jump of JAL. -/
  | link (ret p : W16)
  /-- The flush of DISPLAY. -/
  | flush
  /-- The halt transition. -/
  | halt
  /-- An error is taken. -/
  | raise (e : EngineError)

/-- The update on the state; every instruction but HALT ends with the trailing increment (44_engine.md R156). -/
def Effect.apply : Effect → State → State
  | .stay, s => s
  | .write r v, s => (s.setReg r v).advance
  | .store a v, s => (s.memWrite a v).advance
  | .jump p, s => (s.setPc p).advance
  | .link ret p, s => ((s.setReg .r7 ret).setPc p).advance
  | .flush, s => s.flush.advance
  | .halt, s => s.halt
  | .raise e, s => s.raiseError e

/-- The effect of an instruction, computed from the state before it. -/
def effectOf : Instr → State → Effect
  | .and rd rs rt, s => .write rd (s.reg rs &&& s.reg rt)
  | .or rd rs rt, s => .write rd (s.reg rs ||| s.reg rt)
  | .add rd rs rt, s => .write rd (s.reg rs + s.reg rt)
  | .sub rd rs rt, s => .write rd (s.reg rs - s.reg rt)
  | .slt rd rs rt, s => .write rd (boolWord (signedLess (s.reg rs) (s.reg rt)))
  | .lw rt rs imm, s => .write rt (s.memRead (s.effectiveAddress rs imm))
  | .sw rt rs imm, s => .store (s.effectiveAddress rs imm) (s.reg rt)
  | .beq rs rt imm, s => .jump (if wordsEqual (s.reg rs) (s.reg rt) then s.branchPc imm else s.pc)
  | .j addr, s => .jump (s.pageTarget addr - 1)
  | .addi rt rs imm, s => .write rt (s.reg rs + sext16 imm)
  | .bne rs rt imm, s => .jump (if !wordsEqual (s.reg rs) (s.reg rt) then s.branchPc imm else s.pc)
  | .jr rs, s => .jump (s.reg rs)
  | .jal addr, s => .link s.pc (s.pageTarget addr - 1)
  | .display, _ => .flush
  | .halt, _ => .halt

/-- The effect of the next engine step (44_engine.md R152). -/
def stepEffect (s : State) : Effect :=
  match s.select with
  | .blocked => .stay
  | .raises e => .raise e
  | .runs i => effectOf i s

/-- A branch writes `pc` in both outcomes, the old value where it is not taken. -/
theorem branchIf_eq_setPc (c : Bool) (imm : BitVec 6) (s : State) :
    branchIf c imm s = s.setPc (if c then s.branchPc imm else s.pc) := by
  cases c <;> rfl

/-- An instruction makes exactly the update of its effect. -/
theorem exec_eq (i : Instr) (s : State) : exec i s = .next ((effectOf i s).apply s) := by
  cases i with
  | beq rs rt imm => exact congrArg retire (branchIf_eq_setPc _ imm s)
  | bne rs rt imm => exact congrArg retire (branchIf_eq_setPc _ imm s)
  | and | or | add | sub | slt | lw | sw | j | addi | jr | jal | display | halt => rfl

/-- An engine step makes exactly the update of its effect. -/
theorem step_eq (s : State) : step s = .next ((stepEffect s).apply s) := by
  unfold step execOne stepEffect
  cases s.select with
  | blocked => rfl
  | raises e => rfl
  | runs i => exact exec_eq i s

theorem exec_eq_next {i : Instr} {s t : State} (h : exec i s = .next t) : t = (effectOf i s).apply s := by
  simpa [exec_eq] using h.symm

theorem step_eq_next {s t : State} (h : step s = .next t) : t = (stepEffect s).apply s := by
  simpa [step_eq] using h.symm

/-- A latched error blocks the step (60_exceptions.md R248). -/
theorem stepEffect_of_latched {s : State} (h : s.err ≠ none) : stepEffect s = .stay := by
  cases he : s.err with
  | none => exact absurd he h
  | some e => simp [stepEffect, State.select, he]

/-! ### What a store does to the two memories (20_memory.md R57) -/

theorem State.memWrite_ram (s : State) (a v : W16) :
    (s.memWrite a v).ram = if a.toNat < Config.ramWords then s.ram.write a.toNat v else s.ram := by
  unfold State.memWrite
  split
  · rfl
  · split <;> rfl

theorem State.memWrite_screen (s : State) (a v : W16) :
    (s.memWrite a v).screen =
      if Config.screenBase ≤ a.toNat ∧ a.toNat < Config.screenBase + Config.screenWords then
        s.screen.write (a.toNat - Config.screenBase) v
      else s.screen := by
  simp only [Config.screenBase, Config.screenWords]
  obtain ⟨h, e⟩ | ⟨h, h', e⟩ | ⟨h, e⟩ := s.memWrite_cases a v <;> rw [e]
  · rw [if_neg (by omega)]
  · rw [if_pos (by omega)]
  · rw [if_neg (by omega)]

/-- A store does not look at the registers. -/
theorem State.setReg_memWrite (s : State) (r : Reg) (v a w : W16) :
    (s.setReg r v).memWrite a w = (s.memWrite a w).setReg r v := by
  unfold State.memWrite
  split
  · rfl
  · split <;> rfl

/-! ### What no effect touches, and what it may do to the rest -/

@[simp] theorem Effect.apply_rom (e : Effect) (s : State) : (e.apply s).rom = s.rom := by
  cases e <;> simp [Effect.apply]

@[simp] theorem Effect.apply_kbd (e : Effect) (s : State) : (e.apply s).kbd = s.kbd := by
  cases e <;> simp [Effect.apply]

/-- The pixel trace only grows: by the flush's record, else not at all (10_state.md R41). -/
theorem Effect.sink_prefix_apply (e : Effect) (s : State) : s.sink <+: (e.apply s).sink := by
  cases e with
  | flush => exact List.prefix_append _ _
  | store a v => simp [Effect.apply]
  | stay | write | jump | link | halt | raise => exact List.prefix_refl _

/-- What an effect writes to register `q`, none where it writes nothing. -/
def Effect.written : Effect → Reg → Option W16
  | .write r v, q => if q = r then some v else none
  | .link ret _, q => if q = .r7 then some ret else none
  | _, _ => none

/-- A register holds what the effect wrote to it, else what it held. -/
theorem Effect.reg_apply (e : Effect) (s : State) (q : Reg) :
    (e.apply s).reg q = (e.written q).getD (s.reg q) := by
  cases e with
  | write r v => by_cases h : q = r <;> simp [Effect.apply, Effect.written, State.reg_setReg, h]
  | link ret p => by_cases h : q = .r7 <;> simp [Effect.apply, Effect.written, State.reg_setReg, h]
  | store a v => simp [Effect.apply, Effect.written]
  | stay | jump | flush | halt | raise => rfl

theorem Effect.eq_of_written_write {r q : Reg} {v : W16} (h : (Effect.write r v).written q ≠ none) : q = r := by
  simpa [Effect.written] using h

theorem Effect.eq_of_written_link {q : Reg} {ret p : W16} (h : (Effect.link ret p).written q ≠ none) : q = .r7 := by
  simpa [Effect.written] using h

theorem Effect.written_of_reg_apply_ne {e : Effect} {s : State} {q : Reg} (h : (e.apply s).reg q ≠ s.reg q) :
    e.written q ≠ none := by
  intro hw
  simp [Effect.reg_apply, hw] at h

/-- Outside the register file an effect comes out the same whatever a register held. -/
theorem Effect.apply_setReg (e : Effect) (s : State) (r : Reg) (v : W16) :
    { e.apply (s.setReg r v) with regs := (e.apply s).regs } = e.apply s := by
  cases e with
  | store a w => simp only [Effect.apply, State.setReg_memWrite]; rfl
  | stay | write | jump | link | flush | halt | raise => rfl

/-! ### Registers: who writes them, who reads them (10_state.md R24) -/

/-- The registers that R24 lists as read. -/
def readsOf : Instr → List Reg
  | .and _ rs rt => [rs, rt]
  | .or _ rs rt => [rs, rt]
  | .add _ rs rt => [rs, rt]
  | .sub _ rs rt => [rs, rt]
  | .slt _ rs rt => [rs, rt]
  | .lw _ rs _ => [rs]
  | .sw rt rs _ => [rs, rt]
  | .beq rs rt _ => [rs, rt]
  | .j _ => []
  | .addi _ rs _ => [rs]
  | .bne rs rt _ => [rs, rt]
  | .jr rs => [rs]
  | .jal _ => []
  | .display => []
  | .halt => []

/-- An instruction's effect depends only on the registers it reads, `pc` and the Memory Bus. -/
theorem effectOf_congr {i : Instr} {s u : State} (hreg : ∀ q ∈ readsOf i, u.reg q = s.reg q) (hpc : u.pc = s.pc)
    (hmem : ∀ a, u.memRead a = s.memRead a) : effectOf i u = effectOf i s := by
  cases i with
  | and | or | add | sub | slt | addi | jr => simp_all [readsOf, effectOf]
  | lw | sw => simp_all [readsOf, effectOf, State.effectiveAddress]
  | beq | bne => simp_all [readsOf, effectOf, State.branchPc]
  | j | jal => simp [effectOf, State.pageTarget, hpc]
  | display | halt => rfl

/-- Settles O36: a register that differs was written, and the effect of each instruction says which one that is. -/
theorem registerWritersAreTheListedOnes : Obligations.RegisterWritersAreTheListedOnes := by
  intro i s t r h hne
  obtain rfl := exec_eq_next h
  have hw := Effect.written_of_reg_apply_ne hne
  cases i with
  | and | or | add | sub | slt | lw | addi => exact Effect.eq_of_written_write hw
  | jal => exact Effect.eq_of_written_link hw
  | sw | beq | j | bne | jr | display | halt => exact absurd rfl hw

/-- Settles O37: the effect is the same in both runs, so only what `r` held before can differ after it. -/
theorem registerReadersAreTheListedOnes : Obligations.RegisterReadersAreTheListedOnes := by
  intro i s t r v hread h
  obtain rfl := exec_eq_next h
  have hunread : r ∉ readsOf i := by
    cases i with
    | and | or | add | sub | slt | lw | sw | beq | addi | bne | jr => simpa [readsOf] using hread
    | j | jal | display | halt => exact List.not_mem_nil
  have heffect : effectOf i (s.setReg r v) = effectOf i s :=
    effectOf_congr (fun _ hq => Regs.get_set_of_ne _ (ne_of_mem_of_not_mem hq hunread) v) rfl
      (State.memRead_congr rfl rfl rfl)
  refine ⟨_, exec_eq i _, ?_, ?_, ?_⟩ <;> rw [heffect]
  · exact Effect.apply_setReg _ s r v
  · intro q hq
    simp [Effect.reg_apply, State.reg_setReg, hq]
  · cases hw : (effectOf i s).written r <;> simp [Effect.reg_apply, hw]

/-! ### The invariant -/

/-- A store keeps both memories canonical: each half of the data space writes below its own capacity. -/
theorem Inv.memWrite {s : State} (h : Inv s) (a v : W16) : Inv (s.memWrite a v) where
  rom := by simp [h.rom]
  ram := by
    rw [State.memWrite_ram]
    split
    · exact Memory.wf_write v h.ram ‹_›
    · exact h.ram
  screen := by
    rw [State.memWrite_screen]
    split
    · exact Memory.wf_write v h.screen (by omega)
    · exact h.screen
  latch := by simpa using h.latch

/-- Every effect keeps the invariant: the only one that sets the latch also halts the engine. -/
theorem Inv.apply {s : State} (h : Inv s) (e : Effect) : Inv (e.apply s) := by
  cases e with
  | store a v => exact { h.memWrite a v with }
  | halt => exact { h with latch := fun _ => rfl }
  | raise e => exact { h with latch := fun _ => rfl }
  | stay | write | jump | link | flush => exact { h with }

/-- Settles O30: a step is an effect, and every effect keeps the invariant. -/
theorem stepKeepsInvariant : Obligations.StepKeepsInvariant := by
  intro s t hs h
  obtain rfl := step_eq_next h
  exact hs.apply _

theorem inv_powerOn (freqInit : Nat) : Inv (State.powerOn freqInit) where
  rom := Memory.wf_nil _
  ram := Memory.wf_nil _
  screen := Memory.wf_nil _
  latch h := absurd rfl h

/-- Settles O29: the three memories are empty, the latch is clear and the trace is empty. -/
theorem resetHasInvariant : Obligations.ResetHasInvariant :=
  fun freqInit => ⟨inv_powerOn freqInit, nofun, inv_powerOn _⟩

/-- Settles O52: field by field, every cell of an empty memory being unlisted. -/
theorem powerOnState : Obligations.PowerOnState := by
  intro freqInit
  have hregs : ∀ r, (State.powerOn freqInit).reg r = if r = .r6 then 0x3FFF else 0x0000 := by
    intro r
    cases r <;> rfl
  exact ⟨hregs, rfl, Memory.read_nil, Memory.read_nil, Memory.read_nil, rfl, rfl, rfl, rfl, rfl, rfl, rfl, rfl⟩

/-! ### What a program cannot see (10_state.md R44) -/

/-- `u` agrees with `s` on everything a program can see; DirtySet, run state, frequency, baseline and traces are
free. -/
structure SameVisible (s u : State) : Prop where
  regs : u.regs = s.regs
  pc : u.pc = s.pc
  rom : u.rom = s.rom
  ram : u.ram = s.ram
  screen : u.screen = s.screen
  kbd : u.kbd = s.kbd
  err : u.err = s.err

namespace SameVisible

variable {s u : State}

theorem setReg (h : SameVisible s u) (r : Reg) (v : W16) : SameVisible (s.setReg r v) (u.setReg r v) :=
  { h with regs := congrArg (Regs.set · r v) h.regs }

theorem setPc (h : SameVisible s u) (p : W16) : SameVisible (s.setPc p) (u.setPc p) :=
  { h with pc := rfl }

theorem advance (h : SameVisible s u) : SameVisible s.advance u.advance :=
  { h with pc := congrArg (· + 1) h.pc }

theorem memWrite (h : SameVisible s u) (a v : W16) : SameVisible (s.memWrite a v) (u.memWrite a v) where
  regs := by simp [h.regs]
  pc := by simp [h.pc]
  rom := by simp [h.rom]
  ram := by simp only [State.memWrite_ram, h.ram]
  screen := by simp only [State.memWrite_screen, h.screen]
  kbd := by simp [h.kbd]
  err := by simp [h.err]

/-- The same effect keeps what a program can see equal. -/
theorem apply (h : SameVisible s u) (e : Effect) : SameVisible (e.apply s) (e.apply u) := by
  cases e with
  | write r v => exact (h.setReg r v).advance
  | store a v => exact (h.memWrite a v).advance
  | jump p => exact (h.setPc p).advance
  | link ret p => exact ((h.setReg .r7 ret).setPc p).advance
  | flush => exact { h.advance with }
  | raise e => exact { h with err := rfl }
  | stay | halt => exact { h with }

/-- The next step's effect is computed from what a program can see. -/
theorem stepEffect_eq (h : SameVisible s u) : stepEffect u = stepEffect s := by
  have hselect : u.select = s.select := by simp only [State.select, State.fetch, h.err, h.pc, h.rom]
  unfold stepEffect
  rw [hselect]
  cases s.select with
  | blocked => rfl
  | raises e => rfl
  | runs i =>
    exact effectOf_congr (fun q _ => congrArg (Regs.get · q) h.regs) h.pc
      (State.memRead_congr h.ram h.screen h.kbd)

end SameVisible

/-- Settles O39: both states make the same effect, and it keeps them equal to a program. -/
theorem controlStateIsInvisibleToPrograms : Obligations.ControlStateIsInvisibleToPrograms := by
  intro s u s' u' hregs hpc hrom hram hscreen hkbd herr hs hu
  have hsame : SameVisible s u := ⟨hregs, hpc, hrom, hram, hscreen, hkbd, herr⟩
  obtain rfl := step_eq_next hs
  obtain rfl := step_eq_next hu
  rw [hsame.stepEffect_eq]
  obtain ⟨hregs', hpc', hrom', hram', hscreen', hkbd', herr'⟩ := hsame.apply (stepEffect s)
  exact ⟨hregs', hpc', hrom', hram', hscreen', hkbd', herr'⟩

/-! ### What a host operation can do (47_host_interface.md R215) -/

/-- `t` comes from `s` by engine steps, baseline updates and notifications: what `step` and `tick` are made of. -/
inductive Execution (s : State) : State → Prop
  | refl : Execution s s
  | step {t u : State} : Execution s t → Machine.step t = .next u → Execution s u
  | base {t : State} (now : Timestamp) : Execution s t → Execution s { t with base := some now }
  | notified {t : State} : Execution s t → Execution s t.notified

/-- The host's `step` is an execution (47_host_interface.md R224). -/
theorem execution_of_stepOp {s t : State} (h : stepOp s = .next t) : Execution s t := by
  obtain ⟨-, rfl⟩ | ⟨-, u, hu, rfl⟩ := stepOp_cases h
  · exact .refl
  · exact .notified (.step .refl hu)

/-- A tick is an execution, with a batch of any length (45_throttle.md R183). -/
theorem execution_of_tickOp {now : Timestamp} {s t : State} (h : tickOp now s = .next t) : Execution s t := by
  obtain rfl | rfl | ⟨n, u, hu, rfl⟩ := tickOp_eq_next h
  · exact .refl
  · exact .base now .refl
  · exact .notified (runBatch_keeps (fun _ _ => .step) n _ _ (.base now .refl) hu)

/-- Everything a host operation can do, one case for each way it changes the state. -/
inductive HostEffect (s : State) : HostOp → State → Prop
  | unchanged {op : HostOp} : HostEffect s op s
  | load {region : Region} {words : List W16} : words.length ≤ capacity region →
      HostEffect s (.load region words) (s.setRegion region (Memory.ofWords 0 words)).notified
  | setCell {region : Region} {index : Nat} {value : W16} : index < capacity region →
      HostEffect s (.setCell region index value)
        (s.setRegion region ((s.region region).write index value)).notified
  | keyboard {code : W16} : HostEffect s (.setKeyboardValue code) { s with kbd := code }
  | executes {op : HostOp} {t : State} : (op = .step ∨ ∃ now, op = .tick now) → Execution s t → HostEffect s op t
  | start : s.err = none → s.run ≠ .running → HostEffect s .start { s with run := .running, base := none }
  | stop : s.run = .running → HostEffect s .stop { s with run := .idle }
  | reset : HostEffect s .reset (resetOp s)
  | frequency {hz : Nat} : HostEffect s (.setFrequency hz) { s with freq := hz }

theorem hostEffect_of_hostStep {op : HostOp} {s t : State} (h : hostStep op s = .next t) : HostEffect s op t := by
  cases op with
  | load region words =>
    obtain rfl : loadOp region words s = t := by simpa [hostStep] using h
    unfold loadOp
    split
    · exact .load ‹_›
    · exact .unchanged
  | setCell region index value =>
    obtain rfl : setCellOp region index value s = t := by simpa [hostStep] using h
    unfold setCellOp
    split
    · exact .setCell ‹_›
    · exact .unchanged
  | setKeyboardValue code => cases h; exact .keyboard
  | tick now => exact .executes (.inr ⟨now, rfl⟩) (execution_of_tickOp h)
  | step => exact .executes (.inl rfl) (execution_of_stepOp h)
  | start =>
    obtain rfl : startOp s = t := by simpa [hostStep] using h
    unfold startOp
    split
    case isTrue hstart => exact .start hstart.left hstart.right
    case isFalse => exact .unchanged
  | stop =>
    obtain rfl : stopOp s = t := by simpa [hostStep] using h
    unfold stopOp
    split
    · exact .stop ‹_›
    · exact .unchanged
  | reset => cases h; exact .reset
  | setFrequency hz => cases h; exact .frequency

/-! ### What replacing a region leaves alone (47_host_interface.md R222) -/

@[simp] theorem State.setRegion_kbd (s : State) (region : Region) (m : Memory) :
    (s.setRegion region m).kbd = s.kbd := by cases region <;> rfl

@[simp] theorem State.setRegion_err (s : State) (region : Region) (m : Memory) :
    (s.setRegion region m).err = s.err := by cases region <;> rfl

@[simp] theorem State.setRegion_sink (s : State) (region : Region) (m : Memory) :
    (s.setRegion region m).sink = s.sink := by cases region <;> rfl

/-! ### Frames of an execution, by induction on it -/

namespace Execution

variable {s t : State}

theorem rom_eq (h : Execution s t) : t.rom = s.rom := by
  induction h with
  | refl => rfl
  | step _ hu ih => rw [step_eq_next hu, Effect.apply_rom, ih]
  | base _ _ ih => exact ih
  | notified _ ih => exact ih

theorem kbd_eq (h : Execution s t) : t.kbd = s.kbd := by
  induction h with
  | refl => rfl
  | step _ hu ih => rw [step_eq_next hu, Effect.apply_kbd, ih]
  | base _ _ ih => exact ih
  | notified _ ih => exact ih

theorem sink_prefix (h : Execution s t) : s.sink <+: t.sink := by
  induction h with
  | refl => exact List.prefix_refl _
  | step _ hu ih =>
    rw [step_eq_next hu]
    exact ih.trans (Effect.sink_prefix_apply _ _)
  | base _ _ ih => exact ih
  | notified _ ih => exact ih

/-- An execution keeps a latched error: every step of it is blocked. -/
theorem err_eq_of_latched (hs : s.err ≠ none) (h : Execution s t) : t.err = s.err := by
  induction h with
  | refl => rfl
  | step _ hu ih =>
    rw [step_eq_next hu, stepEffect_of_latched (ih ▸ hs)]
    exact ih
  | base _ _ ih => exact ih
  | notified _ ih => exact ih

end Execution

/-! ### Rules over every step and every host operation -/

/-- Settles O33: no effect writes ROM, and of the host's operations only those that replace region ROM do. -/
theorem onlyLoadAndEditChangeRom : Obligations.OnlyLoadAndEditChangeRom := by
  refine ⟨fun s t h => by rw [step_eq_next h, Effect.apply_rom], fun op s t h => ?_⟩
  cases hostEffect_of_hostStep h with
  | @load region words =>
    cases region with
    | rom => exact .inr (.inl ⟨words, rfl⟩)
    | ram => exact .inl rfl
  | @setCell region index value =>
    cases region with
    | rom => exact .inr (.inr ⟨index, value, rfl⟩)
    | ram => exact .inl rfl
  | executes _ hexec => exact .inl hexec.rom_eq
  | unchanged | keyboard | start | stop | reset | frequency => exact .inl rfl

/-- Settles O34: no effect writes the keyboard register, and one host operation does. -/
theorem onlyHostSetsKeyboard : Obligations.OnlyHostSetsKeyboard := by
  refine ⟨fun s t h => by rw [step_eq_next h, Effect.apply_kbd], fun op s t h => ?_⟩
  cases hostEffect_of_hostStep h with
  | keyboard => exact .inr rfl
  | load | setCell => exact .inl (by simp)
  | executes _ hexec => exact .inl hexec.kbd_eq
  | unchanged | start | stop | reset | frequency => exact .inl rfl

theorem sink_prefix_of_hostStep {op : HostOp} {s t : State} (h : hostStep op s = .next t) : s.sink <+: t.sink := by
  cases hostEffect_of_hostStep h with
  | executes _ hexec => exact hexec.sink_prefix
  | load | setCell => simp
  | unchanged | keyboard | start | stop | reset | frequency => exact List.prefix_refl _

/-- Settles O43: the flush appends a record, and nothing else touches the pixel trace. -/
theorem pixelTraceIsAppendOnly : Obligations.PixelTraceIsAppendOnly := by
  refine ⟨fun s t h => ?_, fun op s t h => ?_⟩
  · obtain ⟨records, hrecords⟩ := (stepEffect s).sink_prefix_apply s
    exact ⟨records, by rw [step_eq_next h, hrecords]⟩
  · obtain ⟨records, hrecords⟩ := sink_prefix_of_hostStep h
    exact ⟨records, hrecords.symm⟩

/-- The latch is kept, cleared by reset, or was clear before an operation that executes (10_state.md R37). -/
theorem err_of_hostStep {op : HostOp} {s t : State} (h : hostStep op s = .next t) :
    t.err = s.err ∨ (op = .reset ∧ t.err = none) ∨ (s.err = none ∧ (op = .step ∨ ∃ now, op = .tick now)) := by
  cases hostEffect_of_hostStep h with
  | executes hop hexec =>
    by_cases hs : s.err = none
    · exact .inr (.inr ⟨hs, hop⟩)
    · exact .inl (hexec.err_eq_of_latched hs)
  | reset => exact .inr (.inl ⟨rfl, rfl⟩)
  | load | setCell => exact .inl (by simp)
  | unchanged | keyboard | start | stop | frequency => exact .inl rfl

/-- Settles O28: from what an operation can do to the latch. -/
theorem onlyResetClearsErrorLatch : Obligations.OnlyResetClearsErrorLatch := by
  intro op s t h
  obtain hkept | ⟨hop, hclear⟩ | ⟨hclear, hop⟩ := err_of_hostStep h
  · exact ⟨fun _ _ => hkept, fun hs ht => absurd (hkept ▸ ht) hs, fun hs ht => absurd (hkept.trans hs) ht⟩
  · exact ⟨fun _ ht => absurd hclear ht, fun _ _ => hop, fun _ ht => absurd hclear ht⟩
  · exact ⟨fun hs => absurd hclear hs, fun hs => absurd hclear hs, fun _ _ => hop⟩

end Sys2Proof.Machine

/-! ## Data memory: a load returns the latest store (20_memory.md R63) -/

namespace Sys2Proof.Machine

/-! ### Which cell a data address reads (20_memory.md R56) -/

theorem State.memRead_of_lt_screenBase (s : State) {a : W16} (ha : a.toNat < Config.screenBase) :
    s.memRead a = s.ram.read a.toNat :=
  if_pos ha

theorem State.memRead_of_screen (s : State) {a : W16} (hlo : Config.screenBase ≤ a.toNat)
    (hhi : a.toNat < Config.screenBase + Config.screenWords) :
    s.memRead a = s.screen.read (a.toNat - Config.screenBase) := by
  unfold State.memRead
  rw [if_neg (Nat.not_lt.mpr hlo), if_pos hhi]

/-- A read depends on one cell of each memory at most, and on the keyboard register. -/
theorem State.memRead_congr_cell {s t : State} {b : W16} (hram : t.ram.read b.toNat = s.ram.read b.toNat)
    (hscreen : Config.screenBase ≤ b.toNat →
      t.screen.read (b.toNat - Config.screenBase) = s.screen.read (b.toNat - Config.screenBase))
    (hkbd : t.kbd = s.kbd) : t.memRead b = s.memRead b := by
  by_cases hb : b.toNat < Config.screenBase
  · rw [s.memRead_of_lt_screenBase hb, t.memRead_of_lt_screenBase hb, hram]
  · simp only [State.memRead, hram, hscreen (Nat.le_of_not_lt hb), hkbd]

/-! ### What a store leaves in the cells of the two memories (20_memory.md R57, R58) -/

theorem State.read_ram_memWrite_of_ne (s : State) {a : W16} {n : Nat} (v : W16) (hn : n ≠ a.toNat) :
    (s.memWrite a v).ram.read n = s.ram.read n := by
  rw [State.memWrite_ram]
  split
  · exact Memory.read_write_of_ne _ v hn
  · rfl

theorem State.read_screen_memWrite_of_ne (s : State) {a : W16} {n : Nat} (v : W16)
    (hn : Config.screenBase + n ≠ a.toNat) : (s.memWrite a v).screen.read n = s.screen.read n := by
  rw [State.memWrite_screen]
  split
  · exact Memory.read_write_of_ne _ v (by omega)
  · rfl

/-! ### A load after a store -/

/-- The latest store is read back from both halves of the data space that have cells. -/
theorem State.memRead_memWrite_self {s : State} (hs : Inv s) {a : W16} (v : W16) (ha : a.toNat < 0x6000) :
    (s.memWrite a v).memRead a = v := by
  by_cases hlow : a.toNat < Config.screenBase
  · rw [State.memRead_of_lt_screenBase _ hlow, State.memWrite_ram, if_pos hlow]
    exact Memory.read_write_self v hs.ram
  · have hhigh : Config.screenBase ≤ a.toNat := Nat.le_of_not_lt hlow
    rw [State.memRead_of_screen _ hhigh ha, State.memWrite_screen, if_pos ⟨hhigh, ha⟩]
    exact Memory.read_write_self v hs.screen

/-- Two data addresses never share a cell, in any memory, canonical or not. -/
theorem State.memRead_memWrite_of_ne (s : State) {a b : W16} (v : W16) (hne : b ≠ a) :
    (s.memWrite a v).memRead b = s.memRead b := by
  have hcell : b.toNat ≠ a.toNat := BitVec.toNat_ne_iff_ne.mpr hne
  exact State.memRead_congr_cell (s.read_ram_memWrite_of_ne v hcell)
    (fun _ => s.read_screen_memWrite_of_ne v (by omega)) (s.memWrite_kbd a v)

/-- The keyboard register and the hole drop a store. -/
theorem State.memWrite_of_ge (s : State) {a : W16} (v : W16) (ha : 0x6000 ≤ a.toNat) : s.memWrite a v = s := by
  obtain ⟨hram, -⟩ | ⟨-, hscreen, -⟩ | ⟨-, hkeep⟩ := s.memWrite_cases a v
  · omega
  · omega
  · exact hkeep

/-- Settles O40: a data address names one cell of its own, or none. -/
theorem loadReturnsLatestStore : Obligations.LoadReturnsLatestStore :=
  fun s _ _ v hs => ⟨State.memRead_memWrite_self hs v, s.memRead_memWrite_of_ne v, s.memWrite_of_ge v⟩

end Sys2Proof.Machine

/-! ## Encoding: decoder and encoder undo each other (30_encoding.md R81 to R101) -/

namespace Sys2Proof

/-! ### The fields as arithmetic (30_encoding.md R81, R83) -/

theorem decodeFields_rs_toNat (w : W16) : (decodeFields w).rs.toNat = w.toNat / 512 % 8 :=
  field_toNat w 9 3

theorem decodeFields_rt_toNat (w : W16) : (decodeFields w).rt.toNat = w.toNat / 64 % 8 :=
  field_toNat w 6 3

theorem decodeFields_rd_toNat (w : W16) : (decodeFields w).rd.toNat = w.toNat / 8 % 8 :=
  field_toNat w 3 3

theorem decodeFields_imm_toNat (w : W16) : (decodeFields w).imm.toNat = w.toNat % 64 := by
  simp only [decodeFields, field_toNat]
  omega

theorem decodeFields_addr_toNat (w : W16) : (decodeFields w).addr.toNat = w.toNat % 4096 := by
  simp only [decodeFields, field_toNat]
  omega

theorem decodeFields_imm_eq_rd_funct (w : W16) :
    (decodeFields w).imm.toNat = (decodeFields w).rd.toNat * 8 + (decodeFields w).funct.toNat := by
  rw [decodeFields_imm_toNat, decodeFields_rd_toNat, decodeFields_funct_toNat]
  omega

theorem decodeFields_addr_eq_rs_rt_imm (w : W16) :
    (decodeFields w).addr.toNat =
      (decodeFields w).rs.toNat * 512 + (decodeFields w).rt.toNat * 64 + (decodeFields w).imm.toNat := by
  rw [decodeFields_addr_toNat, decodeFields_rs_toNat, decodeFields_rt_toNat, decodeFields_imm_toNat]
  omega

/-- Settles O1: each field is a quotient and remainder of the word, and so are the overlaps. -/
theorem decoderFieldsAreBitRanges : Obligations.DecoderFieldsAreBitRanges := fun w =>
  ⟨⟨decodeFields_op_toNat w, decodeFields_rs_toNat w, decodeFields_rt_toNat w, decodeFields_rd_toNat w,
      decodeFields_funct_toNat w, decodeFields_imm_toNat w, decodeFields_addr_toNat w⟩,
    decodeFields_imm_eq_rd_funct w, decodeFields_addr_eq_rs_rt_imm w⟩

/-- Settles O2: ten closed words, each decoded by evaluation. -/
theorem writtenOutWordsDecode : Obligations.WrittenOutWordsDecode := by
  unfold Obligations.WrittenOutWordsDecode
  decide

/-! ### The one instruction without a word (30_encoding.md R94, 40_alu.md R110) -/

theorem wellFormed_and_iff (rd rs rt : Reg) :
    WellFormed (.and rd rs rt) ↔ ¬(rd = .r0 ∧ rs = .r0 ∧ rt = .r0) := by
  simp [WellFormed, Instr.wf, imp_iff_not_or, or_assoc]

theorem eq_and_r0_r0_r0_of_not_wellFormed {i : Instr} (h : ¬WellFormed i) : i = .and .r0 .r0 .r0 := by
  cases i with
  | and rd rs rt =>
    rw [wellFormed_and_iff, not_not] at h
    obtain ⟨rfl, rfl, rfl⟩ := h
    rfl
  | or | add | sub | slt | lw | sw | beq | j | addi | bne | jr | jal | display | halt => exact absurd rfl h

theorem regBits_toNat_eq_zero_iff (r : Reg) : (regBits r).toNat = 0 ↔ r = .r0 := by
  cases r <;> decide

/-- The only R-format word that the halt test takes away is that of `AND R0, R0, R0`. -/
theorem encodeR_eq_haltWord_iff (rs rt rd : Reg) (funct : BitVec 3) :
    encodeR rs rt rd funct = Config.haltWord ↔ (rd = .r0 ∧ rs = .r0 ∧ rt = .r0) ∧ funct.toNat = 0 := by
  have hhalt : Config.haltWord.toNat = 0 := rfl
  rw [← BitVec.toNat_inj, encodeR_toNat, hhalt, ← regBits_toNat_eq_zero_iff rd,
    ← regBits_toNat_eq_zero_iff rs, ← regBits_toNat_eq_zero_iff rt]
  omega

/-- A function code other than AND's keeps an R-format word off the sentinel. -/
theorem encodeR_ne_haltWord {rs rt rd : Reg} {funct : BitVec 3} (h : funct.toNat ≠ 0) :
    encodeR rs rt rd funct ≠ Config.haltWord :=
  fun heq => h ((encodeR_eq_haltWord_iff rs rt rd funct).mp heq).right

/-! ### A row of the decode tables, read back from its word (30_encoding.md R84 to R91) -/

/-- A row of the function-code table, on every field value the row does not fix (30_encoding.md R91). -/
def AluRow (funct : BitVec 3) (row : Reg → Reg → Reg → Instr) : Prop :=
  ∀ f : Fields, f.funct = funct → decodeAlu f = .ok (row (regOf f.rd) (regOf f.rs) (regOf f.rt))

/-- A row of the opcode table that reads two registers and the immediate (30_encoding.md R90). -/
def ImmRow (op : BitVec 4) (row : Reg → Reg → BitVec 6 → Instr) : Prop :=
  ∀ f : Fields, f.op = op → decodeOp f = .ok (row (regOf f.rs) (regOf f.rt) f.imm)

/-- A row of the opcode table that reads the address (30_encoding.md R90). -/
def AddrRow (op : BitVec 4) (row : BitVec 12 → Instr) : Prop :=
  ∀ f : Fields, f.op = op → decodeOp f = .ok (row f.addr)

theorem AluRow.decode_encode {funct : BitVec 3} {row : Reg → Reg → Reg → Instr} (hrow : AluRow funct row)
    {rd rs rt : Reg} (hne : encodeR rs rt rd funct ≠ Config.haltWord) :
    decode (encodeR rs rt rd funct) = .ok (row rd rs rt) := by
  obtain ⟨f, hdecode, hrs, hrt, hrd, hfunct⟩ := decode_encodeR rs rt rd funct hne
  rw [hdecode, hrow f hfunct, hrs, hrt, hrd, regOf_regBits, regOf_regBits, regOf_regBits]

theorem ImmRow.decode_encode {op : BitVec 4} {row : Reg → Reg → BitVec 6 → Instr} (hrow : ImmRow op row)
    (hop : 0 < op.toNat) (rs rt : Reg) (imm : BitVec 6) :
    decode (encodeI op rs rt imm) = .ok (row rs rt imm) := by
  obtain ⟨f, hdecode, hf, hrs, hrt, himm⟩ := decode_encodeI op rs rt imm hop
  rw [hdecode, hrow f hf, hrs, hrt, himm, regOf_regBits, regOf_regBits]

theorem AddrRow.decode_encode {op : BitVec 4} {row : BitVec 12 → Instr} (hrow : AddrRow op row)
    (hop : 0 < op.toNat) (addr : BitVec 12) : decode (encodeJ op addr) = .ok (row addr) := by
  obtain ⟨f, hdecode, hf, haddr⟩ := decode_encodeJ op addr hop
  rw [hdecode, hrow f hf, haddr]

theorem aluRow_and : AluRow 0#3 .and := fun f h => by simp [decodeAlu, h]
theorem aluRow_or : AluRow 1#3 .or := fun f h => by simp [decodeAlu, h]
theorem aluRow_add : AluRow 2#3 .add := fun f h => by simp [decodeAlu, h]
theorem aluRow_sub : AluRow 6#3 .sub := fun f h => by simp [decodeAlu, h]
theorem aluRow_slt : AluRow 7#3 .slt := fun f h => by simp [decodeAlu, h]

theorem immRow_lw : ImmRow 0x1#4 (fun rs rt imm => .lw rt rs imm) := fun f h => by simp [decodeOp, h]
theorem immRow_sw : ImmRow 0x2#4 (fun rs rt imm => .sw rt rs imm) := fun f h => by simp [decodeOp, h]
theorem immRow_beq : ImmRow 0x3#4 .beq := fun f h => by simp [decodeOp, h]
theorem immRow_addi : ImmRow 0x5#4 (fun rs rt imm => .addi rt rs imm) := fun f h => by simp [decodeOp, h]
theorem immRow_bne : ImmRow 0x6#4 .bne := fun f h => by simp [decodeOp, h]
/-- JR ignores all but one register field (30_encoding.md R95). -/
theorem immRow_jr : ImmRow 0x7#4 (fun rs _ _ => .jr rs) := fun f h => by simp [decodeOp, h]

theorem addrRow_j : AddrRow 0x4#4 .j := fun f h => by simp [decodeOp, h]
theorem addrRow_jal : AddrRow 0x8#4 .jal := fun f h => by simp [decodeOp, h]
/-- DISPLAY ignores the whole address field (30_encoding.md R95). -/
theorem addrRow_display : AddrRow 0xF#4 (fun _ => .display) := fun f h => by simp [decodeOp, h]

/-- Settles O3: the row of each instruction, read back from its format; AND alone needs to be well-formed. -/
theorem decodeOfEncode : Obligations.DecodeOfEncode := by
  intro i hwf
  cases i with
  | and rd rs rt =>
    have hregs := (wellFormed_and_iff rd rs rt).mp hwf
    exact aluRow_and.decode_encode fun heq => hregs ((encodeR_eq_haltWord_iff rs rt rd 0#3).mp heq).left
  | or => exact aluRow_or.decode_encode (encodeR_ne_haltWord (by decide))
  | add => exact aluRow_add.decode_encode (encodeR_ne_haltWord (by decide))
  | sub => exact aluRow_sub.decode_encode (encodeR_ne_haltWord (by decide))
  | slt => exact aluRow_slt.decode_encode (encodeR_ne_haltWord (by decide))
  | lw rt rs imm => exact immRow_lw.decode_encode (by decide) rs rt imm
  | sw rt rs imm => exact immRow_sw.decode_encode (by decide) rs rt imm
  | beq rs rt imm => exact immRow_beq.decode_encode (by decide) rs rt imm
  | j addr => exact addrRow_j.decode_encode (by decide) addr
  | addi rt rs imm => exact immRow_addi.decode_encode (by decide) rs rt imm
  | bne rs rt imm => exact immRow_bne.decode_encode (by decide) rs rt imm
  | jr rs => exact immRow_jr.decode_encode (by decide) rs .r0 0#6
  | jal addr => exact addrRow_jal.decode_encode (by decide) addr
  | display => exact addrRow_display.decode_encode (by decide) 0#12
  | halt => exact decode_haltWord

/-! ### A word put together again from its fields (30_encoding.md R84 to R86, R101) -/

theorem encodeR_decodeFields {w : W16} {funct : BitVec 3} (hop : (decodeFields w).op.toNat = 0)
    (hfunct : (decodeFields w).funct.toNat = funct.toNat) :
    encodeR (regOf (decodeFields w).rs) (regOf (decodeFields w).rt) (regOf (decodeFields w).rd) funct = w := by
  rw [decodeFields_op_toNat] at hop
  apply BitVec.eq_of_toNat_eq
  rw [encodeR_toNat, ← hfunct]
  simp only [regBits_regOf, decodeFields_rs_toNat, decodeFields_rt_toNat, decodeFields_rd_toNat,
    decodeFields_funct_toNat]
  omega

theorem encodeI_decodeFields {w : W16} {op : BitVec 4} (hop : (decodeFields w).op.toNat = op.toNat) :
    encodeI op (regOf (decodeFields w).rs) (regOf (decodeFields w).rt) (decodeFields w).imm = w := by
  apply BitVec.eq_of_toNat_eq
  rw [encodeI_toNat, ← hop]
  simp only [regBits_regOf, decodeFields_op_toNat, decodeFields_rs_toNat, decodeFields_rt_toNat,
    decodeFields_imm_toNat]
  omega

theorem encodeJ_decodeFields {w : W16} {op : BitVec 4} (hop : (decodeFields w).op.toNat = op.toNat) :
    encodeJ op (decodeFields w).addr = w := by
  apply BitVec.eq_of_toNat_eq
  rw [encodeJ_toNat, ← hop, decodeFields_op_toNat, decodeFields_addr_toNat]
  omega

theorem encode_jr_toNat (rs : Reg) : (encode (.jr rs)).toNat = 7 * 4096 + (regBits rs).toNat * 512 :=
  encodeI_toNat 0x7#4 rs .r0 0#6

/-- The word of a JR keeps the opcode and the register of the word it was read from, bits 15 to 9. -/
theorem encode_jr_decodeFields_toNat {w : W16} (hop : (decodeFields w).op.toNat = 7) :
    (encode (.jr (regOf (decodeFields w).rs))).toNat = w.toNat / 512 * 512 := by
  rw [decodeFields_op_toNat] at hop
  rw [encode_jr_toNat, regBits_regOf, decodeFields_rs_toNat]
  omega

/-! ### What the decoder accepts, encoded again (30_encoding.md R95, R101) -/

/-- The word number `n` with the bits that `i` ignores cleared (30_encoding.md R95, R101). -/
def clearIgnored (n : Nat) : Instr → Nat
  | .jr _ => n / 512 * 512
  | .display => 0xF000
  | _ => n

theorem encode_toNat_of_decodeAlu {w : W16} {i : Instr} (hop : (decodeFields w).op.toNat = 0)
    (h : decodeAlu (decodeFields w) = .ok i) : (encode i).toNat = clearIgnored w.toNat i := by
  unfold decodeAlu at h
  split at h
  case h_6 => cases h
  all_goals
    cases h
    exact congrArg BitVec.toNat (encodeR_decodeFields hop ‹_›)

theorem encode_toNat_of_decodeOp {w : W16} {i : Instr} (h : decodeOp (decodeFields w) = .ok i) :
    (encode i).toNat = clearIgnored w.toNat i := by
  unfold decodeOp at h
  split at h
  case h_1 hop => exact encode_toNat_of_decodeAlu hop h
  case h_5 hop | h_9 hop => -- the J-format: J and JAL
    cases h
    exact congrArg BitVec.toNat (encodeJ_decodeFields hop)
  case h_8 hop =>
    cases h
    exact encode_jr_decodeFields_toNat hop
  case h_10 => cases h; rfl
  case h_11 => cases h
  all_goals -- the I-format: LW, SW, BEQ, ADDI and BNE
    rename_i hop
    cases h
    exact congrArg BitVec.toNat (encodeI_decodeFields hop)

theorem encode_toNat_of_decode {w : W16} {i : Instr} (h : decode w = .ok i) :
    (encode i).toNat = clearIgnored w.toNat i := by
  by_cases hhalt : w = Config.haltWord
  · subst hhalt
    cases decode_haltWord.symm.trans h
    rfl
  · exact encode_toNat_of_decodeOp (decode_of_ne hhalt ▸ h)

/-- `AND R0, R0, R0` would need the sentinel's word, which the halt test takes first (30_encoding.md R94, R98). -/
theorem wellFormed_of_decode {w : W16} {i : Instr} (h : decode w = .ok i) : WellFormed i := by
  by_contra hwf
  obtain rfl := eq_and_r0_r0_r0_of_not_wellFormed hwf
  have hw : Config.haltWord = w := BitVec.eq_of_toNat_eq (encode_toNat_of_decode h)
  subst hw
  cases decode_haltWord.symm.trans h

/-- Settles O4: the decoded fields put the word together again, up to the bits that JR and DISPLAY ignore. -/
theorem encodeOfDecode : Obligations.EncodeOfDecode := fun _ _ h =>
  ⟨wellFormed_of_decode h, encode_toNat_of_decode h⟩

end Sys2Proof

/-! ## The ALU group: encoding, result and frame (40_alu.md R110 to R114) -/

namespace Sys2Proof.Machine

/-! ### The frame of a register write that retires -/

theorem sameRegsBut_setReg_advance (s : State) (r : Reg) (v : W16) : SameRegsBut r s (s.setReg r v).advance :=
  fun _ hq => Regs.get_set_of_ne s.regs hq v

theorem sameData_setReg_advance (s : State) (r : Reg) (v : W16) : SameData s (s.setReg r v).advance :=
  ⟨State.memRead_congr rfl rfl rfl, fun _ => rfl, fun _ => rfl⟩

/-- An instruction whose effect is a register write leaves the word in its register and moves `pc` on; the rest of
the state is framed. -/
theorem exec_of_effectOf_eq_write {i : Instr} {s : State} {r : Reg} {v : W16} (h : effectOf i s = .write r v) :
    ∃ t, exec i s = .next t ∧ t.reg r = v ∧
      t.pc = s.pc + 1 ∧ SameRegsBut r s t ∧ SameData s t ∧ SameTracker s t ∧ SameControl s t := by
  have hexec : exec i s = .next (s.setReg r v).advance := by rw [exec_eq, h, Effect.apply]
  exact ⟨_, hexec, s.reg_setReg_self r v, rfl, sameRegsBut_setReg_advance s r v, sameData_setReg_advance s r v,
    ⟨rfl, rfl⟩, ⟨rfl, rfl, rfl, rfl, rfl, rfl, rfl⟩⟩

/-! ### The results as arithmetic on the readings of 00_scope.md R8 -/

theorem sub_toNat (a b : W16) : ((a - b).toNat : Int) = ((a.toNat : Int) - (b.toNat : Int)) % 65536 := by
  rw [BitVec.toNat_sub]
  omega

/-- `s(v)` of 00_scope.md R8: bit 15 is the sign. -/
theorem toInt_eq_of_getLsbD_fifteen (a : W16) :
    a.toInt = if a.getLsbD 15 then (a.toNat : Int) - 65536 else (a.toNat : Int) := by
  rw [BitVec.toInt_eq_msb_cond, BitVec.msb_eq_getLsbD_last]
  rfl

theorem boolWord_signedLess (a b : W16) : boolWord (signedLess a b) = if a.toInt < b.toInt then 1#16 else 0#16 := by
  simp only [boolWord, signedLess_iff]
  rfl

/-! ### The five instructions -/

/-- Settles O6: the bits of a bitwise AND; the pattern is the word of every well-formed AND. -/
theorem andRunsWithFrame : Obligations.AndRunsWithFrame := by
  intro rd rs rt s
  obtain ⟨t, hexec, hreg, hframe⟩ := exec_of_effectOf_eq_write (i := .and rd rs rt) (s := s) rfl
  refine ⟨fun hne => decodeOfEncode (.and rd rs rt) ((wellFormed_and_iff rd rs rt).mpr hne), t, hexec, ?_, hframe⟩
  intro k _
  rw [hreg, BitVec.getLsbD_and]

/-- Settles O7: the bits of a bitwise OR. -/
theorem orRunsWithFrame : Obligations.OrRunsWithFrame := by
  intro rd rs rt s
  obtain ⟨t, hexec, hreg, hframe⟩ := exec_of_effectOf_eq_write (i := .or rd rs rt) (s := s) rfl
  refine ⟨decodeOfEncode (.or rd rs rt) rfl, t, hexec, ?_, hframe⟩
  intro k _
  rw [hreg, BitVec.getLsbD_or]

/-- Settles O8: the sum of two words is their sum modulo 65536. -/
theorem addRunsWithFrame : Obligations.AddRunsWithFrame := by
  intro rd rs rt s
  obtain ⟨t, hexec, hreg, hframe⟩ := exec_of_effectOf_eq_write (i := .add rd rs rt) (s := s) rfl
  refine ⟨decodeOfEncode (.add rd rs rt) rfl, t, hexec, ?_, hframe⟩
  rw [hreg, BitVec.toNat_add]

/-- Settles O9: the difference of two words is the integers' difference modulo 65536. -/
theorem subRunsWithFrame : Obligations.SubRunsWithFrame := by
  intro rd rs rt s
  obtain ⟨t, hexec, hreg, hframe⟩ := exec_of_effectOf_eq_write (i := .sub rd rs rt) (s := s) rfl
  refine ⟨decodeOfEncode (.sub rd rs rt) rfl, t, hexec, ?_, hframe⟩
  rw [hreg, sub_toNat]

/-- Settles O10: the comparison is of the signed readings, and its word is one of two. -/
theorem sltRunsWithFrame : Obligations.SltRunsWithFrame := by
  intro rd rs rt s
  obtain ⟨t, hexec, hreg, hframe⟩ := exec_of_effectOf_eq_write (i := .slt rd rs rt) (s := s) rfl
  refine ⟨decodeOfEncode (.slt rd rs rt) rfl, t, hexec, ?_, hframe⟩
  rw [hreg, boolWord_signedLess, toInt_eq_of_getLsbD_fifteen, toInt_eq_of_getLsbD_fifteen]

end Sys2Proof.Machine

/-! ## ADDI, LW and SW: encoding, result and frame (41_immediate_memory.md R120 to R122) -/

namespace Sys2Proof.Machine

/-! ### The sum of a register and the immediate (30_encoding.md R88, 20_memory.md R55) -/

/-- `s6(v)` of 30_encoding.md R88 on the unsigned reading: the upper half of the values is negative. -/
theorem signed6_eq (v : BitVec 6) :
    signed6 v = if v.toNat < 32 then (v.toNat : Int) else (v.toNat : Int) - 64 := by
  rw [signed6, getLsbD_five]
  by_cases h : v.toNat < 32 <;> simp [h]

/-- The effective address with the immediate's integer written out. -/
theorem State.effectiveAddress_eq_sum (s : State) (rs : Reg) (imm : BitVec 6) :
    ((s.effectiveAddress rs imm).toNat : Int) =
      (((s.reg rs).toNat : Int) + (if imm.toNat < 32 then (imm.toNat : Int) else (imm.toNat : Int) - 64)) % 65536 := by
  rw [← signed6_eq, State.effectiveAddress_toNat]

/-! ### The Memory Bus by region of the data space (20_memory.md R56, R57) -/

/-- The routing of a read, on the bounds of the data space; the hole reads 0x0000 (decision D7 of the spec,
log entry 5). -/
theorem State.memRead_eq (s : State) (a : W16) :
    s.memRead a =
      (if a.toNat < 0x4000 then s.ram.read a.toNat
        else if a.toNat < 0x6000 then s.screen.read (a.toNat - 0x4000)
        else if a.toNat = 0x6000 then s.kbd
        else 0x0000) :=
  rfl

theorem State.memWrite_of_ram (s : State) {a : W16} (v : W16) (ha : a.toNat < 0x4000) :
    s.memWrite a v = { s with ram := s.ram.write a.toNat v } :=
  if_pos ha

theorem State.memWrite_of_screen (s : State) {a : W16} (v : W16) (hlo : 0x4000 ≤ a.toNat) (hhi : a.toNat < 0x6000) :
    s.memWrite a v =
      { s with
        screen := s.screen.write (a.toNat - 0x4000) v
        dirty := s.dirty ++ [BitVec.ofNat 13 (a.toNat - 0x4000)] } :=
  (if_neg (Nat.not_lt.mpr hlo)).trans (if_pos hhi)

/-- The DirtySet entry of a screen address is its offset: thirteen bits hold every one (10_state.md R35). -/
theorem screenOffset_toNat {a : W16} (hlo : 0x4000 ≤ a.toNat) (hhi : a.toNat < 0x6000) :
    (BitVec.ofNat 13 (a.toNat - 0x4000)).toNat = a.toNat - 0x4000 := by
  rw [BitVec.toNat_ofNat]
  omega

/-- A store that retires leaves ROM, the keyboard register and the control state alone. -/
theorem sameControl_memWrite_advance (s : State) (a v : W16) : SameControl s (s.memWrite a v).advance where
  rom := s.memWrite_rom a v
  kbd := s.memWrite_kbd a v
  run := s.memWrite_run a v
  err := s.memWrite_err a v
  freq := s.memWrite_freq a v
  base := s.memWrite_base a v
  notify := s.memWrite_notify a v

/-! ### The three instructions -/

/-- Settles O11: ADDI writes the sum that LW and SW take as their address. -/
theorem addiRunsWithFrame : Obligations.AddiRunsWithFrame := by
  intro rt rs imm s
  obtain ⟨t, hexec, hreg, hframe⟩ :=
    exec_of_effectOf_eq_write (i := .addi rt rs imm) (s := s) (v := s.effectiveAddress rs imm) rfl
  refine ⟨decodeOfEncode (.addi rt rs imm) rfl, t, hexec, ?_, hframe⟩
  rw [hreg, State.effectiveAddress_eq_sum]

/-- Settles O12: the sum fixes the address, and the bus routes the read by it. -/
theorem lwRunsWithFrame : Obligations.LwRunsWithFrame := by
  intro rt rs imm s
  obtain ⟨t, hexec, hreg, hframe⟩ := exec_of_effectOf_eq_write (i := .lw rt rs imm) (s := s) rfl
  refine ⟨decodeOfEncode (.lw rt rs imm) rfl, t, hexec, ?_, hframe⟩
  intro a ha
  have haddr : a = (s.effectiveAddress rs imm).toNat := by
    rw [← s.effectiveAddress_eq_sum] at ha
    exact Int.ofNat_inj.mp ha
  rw [hreg, haddr, State.memRead_eq]

/-- Settles O13: the bus makes one of three updates, by the region of the address, and each has the frame. -/
theorem swRunsWithFrame : Obligations.SwRunsWithFrame := by
  intro rt rs imm s
  refine ⟨decodeOfEncode (.sw rt rs imm) rfl, s.effectiveAddress_eq_sum rs imm, _, exec_eq (.sw rt rs imm) s, ?_⟩
  simp only [effectOf, Effect.apply]
  generalize s.effectiveAddress rs imm = a
  refine ⟨fun _ hne => s.memRead_memWrite_of_ne _ hne, fun ha => ?ram, fun hlo hhi => ?screen, fun ha => ?dropped,
    s.memWrite_sink a _, congrArg (· + 1) (s.memWrite_pc a _), s.reg_memWrite a _,
    sameControl_memWrite_advance s a _⟩
  case ram =>
    rw [s.memWrite_of_ram _ ha]
    exact ⟨fun hs => Memory.read_write_self _ hs.ram, fun _ hne => Memory.read_write_of_ne _ _ hne, rfl, rfl⟩
  case screen =>
    rw [s.memWrite_of_screen _ hlo hhi]
    exact ⟨fun hs => Memory.read_write_self _ hs.screen, fun _ hne => Memory.read_write_of_ne _ _ hne, rfl,
      _, screenOffset_toNat hlo hhi, rfl⟩
  case dropped =>
    rw [s.memWrite_of_ge _ ha]
    exact ⟨rfl, rfl, rfl⟩

end Sys2Proof.Machine

/-! ## Control flow: the next `pc` of every instruction, and the branches and jumps (42_control_flow.md R130 to R135) -/

namespace Sys2Proof.Machine

/-! ### Where an effect leaves `pc` (10_state.md R27, R28) -/

/-- What an effect makes of the `pc` before it: the last increment follows every effect that retires. -/
def Effect.nextPc : Effect → W16 → W16
  | .write _ _, pc => pc + 1
  | .store _ _, pc => pc + 1
  | .flush, pc => pc + 1
  | .jump p, _ => p + 1
  | .link _ p, _ => p + 1
  | .stay, pc => pc
  | .halt, pc => pc
  | .raise _, pc => pc

theorem Effect.pc_apply (e : Effect) (s : State) : (e.apply s).pc = e.nextPc s.pc := by
  cases e with
  | store a v => exact congrArg (· + 1) (s.memWrite_pc a v)
  | stay | write | jump | link | flush | halt | raise => rfl

/-- The trailing increment wraps from 0xFFFF to 0x0000 (decision D5 of the spec, log entry 8). -/
theorem add_one_toNat (p : W16) : ((p + 1).toNat : Int) = ((p.toNat : Int) + 1) % 65536 := by
  rw [BitVec.toNat_add]
  rfl

/-- A taken branch lands one past its branch sum. -/
theorem State.branchPc_add_one_toNat (s : State) (imm : BitVec 6) :
    ((s.branchPc imm + 1).toNat : Int) = ((s.pc.toNat : Int) + signed6 imm + 1) % 65536 := by
  rw [add_one_toNat, State.branchPc_toNat, Int.emod_add_emod]

/-- The pre-decrement of J and JAL makes them land on the page target itself. -/
theorem State.pageTarget_landing_toNat (s : State) (addr : BitVec 12) :
    (s.pageTarget addr - 1 + 1).toNat = s.pc.toNat / 4096 * 4096 + addr.toNat := by
  rw [BitVec.sub_add_cancel, State.pageTarget_toNat]

/-- `s6(v)` of 30_encoding.md R88 is the two's-complement reading. -/
theorem signed6_eq_toInt (v : BitVec 6) : signed6 v = v.toInt := by
  rw [signed6, BitVec.toInt_eq_msb_cond, BitVec.msb_eq_getLsbD_last]
  rfl

/-! ### The two branches on the registers' equality (42_control_flow.md R130, R131) -/

theorem effectOf_beq (rs rt : Reg) (imm : BitVec 6) (s : State) :
    effectOf (.beq rs rt imm) s = .jump (if s.reg rs = s.reg rt then s.branchPc imm else s.pc) := by
  simp only [effectOf, wordsEqual_iff]

theorem effectOf_bne (rs rt : Reg) (imm : BitVec 6) (s : State) :
    effectOf (.bne rs rt imm) s = .jump (if s.reg rs = s.reg rt then s.pc else s.branchPc imm) := by
  simp only [effectOf, Bool.not_eq_true', ← Bool.not_eq_true, wordsEqual_iff, ite_not]

/-- Settles O38: each effect says what it makes of `pc`, and the landings are sums modulo 65536. -/
theorem nextPcTable : Obligations.NextPcTable := by
  intro i s t h
  obtain rfl := exec_eq_next h
  rw [Effect.pc_apply]
  cases i with
  | and | or | add | sub | slt | lw | sw | addi | display => exact add_one_toNat s.pc
  | beq rs rt imm =>
    rw [effectOf_beq, Effect.nextPc]
    by_cases heq : s.reg rs = s.reg rt
    · simp only [if_pos heq, State.branchPc_add_one_toNat, signed6_eq_toInt]
    · simp only [if_neg heq, add_one_toNat]
  | bne rs rt imm =>
    rw [effectOf_bne, Effect.nextPc]
    by_cases heq : s.reg rs = s.reg rt
    · simp only [if_pos heq, add_one_toNat]
    · simp only [if_neg heq, State.branchPc_add_one_toNat, signed6_eq_toInt]
  | j addr | jal addr =>
    have hlanding := s.pageTarget_landing_toNat addr
    have hpc := s.pc.isLt
    have haddr := addr.isLt
    simp only [effectOf, Effect.nextPc, hlanding]
    omega
  | jr rs => exact add_one_toNat (s.reg rs)
  | halt =>
    have hpc := s.pc.isLt
    simp only [effectOf, Effect.nextPc]
    omega

/-! ### The frame of a jump -/

/-- An instruction whose effect is a jump lands one past what it writes to `pc`; the rest of the state is framed. -/
theorem exec_of_effectOf_eq_jump {i : Instr} {s : State} {p : W16} (h : effectOf i s = .jump p) :
    ∃ t, exec i s = .next t ∧ t.pc = p + 1 ∧
      SameRegs s t ∧ SameData s t ∧ SameTracker s t ∧ SameControl s t := by
  have hexec : exec i s = .next (s.setPc p).advance := by rw [exec_eq, h, Effect.apply]
  exact ⟨_, hexec, rfl, fun _ => rfl, ⟨State.memRead_congr rfl rfl rfl, fun _ => rfl, fun _ => rfl⟩,
    ⟨rfl, rfl⟩, ⟨rfl, rfl, rfl, rfl, rfl, rfl, rfl⟩⟩

/-- An instruction whose effect is a linked jump leaves the link in register 7 and lands one past what it writes to
`pc`; the rest of the state is framed. -/
theorem exec_of_effectOf_eq_link {i : Instr} {s : State} {ret p : W16} (h : effectOf i s = .link ret p) :
    ∃ t, exec i s = .next t ∧ t.reg .r7 = ret ∧ t.pc = p + 1 ∧
      SameRegsBut .r7 s t ∧ SameData s t ∧ SameTracker s t ∧ SameControl s t := by
  have hexec : exec i s = .next ((s.setReg .r7 ret).setPc p).advance := by rw [exec_eq, h, Effect.apply]
  exact ⟨_, hexec, s.reg_setReg_self .r7 ret, rfl, fun _ hq => Regs.get_set_of_ne s.regs hq ret,
    ⟨State.memRead_congr rfl rfl rfl, fun _ => rfl, fun _ => rfl⟩,
    ⟨rfl, rfl⟩, ⟨rfl, rfl, rfl, rfl, rfl, rfl, rfl⟩⟩

/-! ### The five instructions -/

/-- Settles O14: the branch sum where the registers are equal, else the next index. -/
theorem beqRunsWithFrame : Obligations.BeqRunsWithFrame := by
  intro rs rt imm s
  obtain ⟨t, hexec, hpc, hframe⟩ := exec_of_effectOf_eq_jump (effectOf_beq rs rt imm s)
  refine ⟨decodeOfEncode (.beq rs rt imm) rfl, t, hexec, fun heq => ?taken, fun hne => ?notTaken, hframe⟩
  case taken => rw [hpc, if_pos (BitVec.eq_of_toNat_eq heq), State.branchPc_add_one_toNat, signed6_eq]
  case notTaken => rw [hpc, if_neg (fun heq => hne (congrArg BitVec.toNat heq))]

/-- Settles O15: the branch sum where the registers differ, else the next index. -/
theorem bneRunsWithFrame : Obligations.BneRunsWithFrame := by
  intro rs rt imm s
  obtain ⟨t, hexec, hpc, hframe⟩ := exec_of_effectOf_eq_jump (effectOf_bne rs rt imm s)
  refine ⟨decodeOfEncode (.bne rs rt imm) rfl, t, hexec, fun hne => ?taken, fun heq => ?notTaken, hframe⟩
  case taken =>
    rw [hpc, if_neg (fun heq => hne (congrArg BitVec.toNat heq)), State.branchPc_add_one_toNat, signed6_eq]
  case notTaken => rw [hpc, if_pos (BitVec.eq_of_toNat_eq heq)]

/-- Settles O16: the pre-decrement and the increment cancel, which leaves the page target. -/
theorem jRunsWithFrame : Obligations.JRunsWithFrame := by
  intro addr s
  obtain ⟨t, hexec, hpc, hframe⟩ := exec_of_effectOf_eq_jump (i := .j addr) (s := s) rfl
  refine ⟨decodeOfEncode (.j addr) rfl, t, hexec, ?_, hframe⟩
  rw [hpc, State.pageTarget_landing_toNat]

/-- Any nine low bits are a register field and an immediate of the I-format (30_encoding.md R85). -/
theorem append_eq_encodeI (op : BitVec 4) (rs : Reg) (low : BitVec 9) :
    op ++ regBits rs ++ low = encodeI op rs (regOf (low.extractLsb' 6 3)) (low.extractLsb' 0 6) := by
  have hlow := low.isLt
  apply BitVec.eq_of_toNat_eq
  rw [encodeI_toNat, regBits_regOf, append_toNat, append_toNat]
  simp only [BitVec.extractLsb'_toNat, Nat.shiftRight_eq_div_pow]
  omega

/-- Settles O17: the row of JR reads one register field, and without a pre-decrement the increment shows. -/
theorem jrRunsWithFrame : Obligations.JrRunsWithFrame := by
  intro rs s
  obtain ⟨t, hexec, hpc, hframe⟩ := exec_of_effectOf_eq_jump (i := .jr rs) (s := s) rfl
  refine ⟨fun ignored => ?decode, t, hexec, ?pc, hframe⟩
  case decode =>
    rw [append_eq_encodeI]
    exact immRow_jr.decode_encode (by decide) rs _ _
  case pc =>
    rw [hpc, BitVec.toNat_add]
    rfl

/-- Settles O18: the link is the index before the jump, and the landing is that of J. -/
theorem jalRunsWithFrame : Obligations.JalRunsWithFrame := by
  intro addr s
  obtain ⟨t, hexec, hlink, hpc, hframe⟩ := exec_of_effectOf_eq_link (i := .jal addr) (s := s) rfl
  refine ⟨decodeOfEncode (.jal addr) rfl, t, hexec, hlink, ?_, hframe⟩
  rw [hpc, State.pageTarget_landing_toNat]

end Sys2Proof.Machine

/-! ## DISPLAY and the halt sentinel: encoding, effect and frame (43_display_halt.md R140, R141) -/

namespace Sys2Proof.Machine

/-! ### The converter as arithmetic on the cell's word (46_display_differ.md R202) -/

theorem redOf_toNat (w : W16) : (redOf w).toNat = w.toNat / 2048 * 8 := by
  have hw := w.isLt
  rw [redOf, append_toNat, field_toNat]
  simp only [BitVec.toNat_ofNat]
  omega

theorem greenOf_toNat (w : W16) : (greenOf w).toNat = w.toNat / 32 % 64 * 4 := by
  rw [greenOf, append_toNat, field_toNat]
  rfl

theorem blueOf_toNat (w : W16) : (blueOf w).toNat = w.toNat % 32 * 8 := by
  rw [blueOf, append_toNat, field_toNat, Nat.pow_zero, Nat.div_one]
  rfl

/-! ### The two instructions -/

/-- Settles O19: the record is the DirtySet mapped to pixel events, so its `k`-th event is that of the `k`-th entry. -/
theorem displayRunsWithFrame : Obligations.DisplayRunsWithFrame := by
  intro s
  refine ⟨fun ignored => addrRow_display.decode_encode (by decide) ignored, s.flush.advance,
    s.dirty.map (pixelEvent s.screen), exec_eq .display s, s.flush_sink, List.length_map _, ?events, rfl, rfl,
    fun _ => rfl, ⟨State.memRead_congr rfl rfl rfl, fun _ => rfl, fun _ => rfl⟩,
    ⟨rfl, rfl, rfl, rfl, rfl, rfl, rfl⟩⟩
  case events =>
    intro k o e hentry hevent
    have he : pixelEvent s.screen o = e := by simpa [hentry] using hevent
    subst he
    exact ⟨rfl, rfl, redOf_toNat _, greenOf_toNat _, blueOf_toNat _⟩

/-- Settles O20: the sentinel is tested before the opcode table, and its effect writes the run state alone. -/
theorem haltRunsWithFrame : Obligations.HaltRunsWithFrame := fun s =>
  ⟨decode_haltWord, s.halt, exec_eq .halt s, s.halt_run, s.halt_pc, s.halt_err, s.reg_halt,
    ⟨State.memRead_congr rfl rfl rfl, fun _ => rfl, fun _ => rfl⟩, ⟨s.halt_dirty, s.halt_sink⟩,
    s.halt_rom, s.halt_kbd, s.halt_freq, s.halt_base, s.halt_notify⟩

end Sys2Proof.Machine

/-! ## The engine's step and its batches (44_engine.md R152 to R159) -/

namespace Sys2Proof.Machine

/-! ### What the tests of an `ExecOne` select, and the outcome they give (60_exceptions.md R247) -/

theorem State.select_eq_blocked_iff (s : State) : s.select = .blocked ↔ s.err ≠ none := by
  obtain ⟨herr, hsel⟩ | ⟨herr, -, hsel⟩ | ⟨herr, -, d, -, hsel⟩ | ⟨herr, -, i, -, hsel⟩ := s.select_cases <;>
    simp [herr, hsel]

theorem State.err_eq_none_of_select_ne_blocked {s : State} (h : s.select ≠ .blocked) : s.err = none :=
  not_not.mp fun herr => h (s.select_eq_blocked_iff.mpr herr)

theorem State.select_eq_runs_of_decode {s : State} {i : Instr} (herr : s.err = none) (hpc : s.pc.toNat < 0x8000)
    (hdecode : decode (s.rom.read s.pc.toNat) = .ok i) : s.select = .runs i := by
  have hfetch : s.fetch = .ok (s.rom.read s.pc.toNat) := if_pos hpc
  simp [State.select, herr, hfetch, hdecode]

theorem State.execOutcome_of_select_blocked {s : State} (h : s.select = .blocked) : s.execOutcome = .blocked := by
  rw [State.execOutcome, h]

theorem State.execOutcome_of_select_raises {s : State} {e : EngineError} (h : s.select = .raises e) :
    s.execOutcome = .fault := by
  rw [State.execOutcome, h]

theorem State.execOutcome_eq_halt_iff (s : State) : s.execOutcome = .halt ↔ s.select = .runs .halt := by
  unfold State.execOutcome
  split <;> simp_all

theorem State.execOutcome_of_select_runs {s : State} {i : Instr} (h : s.select = .runs i) (hi : i ≠ .halt) :
    s.execOutcome = .retired := by
  rw [State.execOutcome, h]
  cases i with
  | halt => exact absurd rfl hi
  | and | or | add | sub | slt | lw | sw | beq | j | addi | bne | jr | jal | display => rfl

/-- Settles O21: the tests of the step pass, and what is left of it is `exec`. -/
theorem stepRunsDecodedInstruction : Obligations.StepRunsDecodedInstruction := by
  intro s i herr hpc hdecode
  rw [step, execOne, State.select_eq_runs_of_decode herr hpc hdecode]

/-! ### The four ways of a step (44_engine.md R159) -/

/-- Every instruction but HALT leaves ROM, the keyboard register and the control state alone. -/
theorem sameControl_of_ne_halt {i : Instr} (hi : i ≠ .halt) (s : State) :
    SameControl s ((effectOf i s).apply s) := by
  cases i with
  | halt => exact absurd rfl hi
  | sw rt rs imm => exact sameControl_memWrite_advance s _ _
  | and | or | add | sub | slt | lw | beq | j | addi | bne | jr | jal | display =>
    exact ⟨rfl, rfl, rfl, rfl, rfl, rfl, rfl⟩

/-- Settles O23: by the step's selection, with HALT apart from the instructions that retire. -/
theorem stepIsPrecise : Obligations.StepIsPrecise := by
  intro s t h
  obtain ⟨hsel, hstep⟩ | ⟨e, hsel, hstep⟩ | ⟨i, hsel, hstep⟩ := step_cases s <;> rw [hstep] at h
  · cases h
    exact .inl ⟨State.execOutcome_of_select_blocked hsel, s.select_eq_blocked_iff.mp hsel, rfl⟩
  · have herr := State.err_eq_none_of_select_ne_blocked (s := s) (by simp [hsel])
    cases h
    exact .inr (.inl ⟨State.execOutcome_of_select_raises hsel, herr, e, rfl⟩)
  · have herr := State.err_eq_none_of_select_ne_blocked (s := s) (by simp [hsel])
    obtain rfl := exec_eq_next h
    by_cases hi : i = .halt
    · subst hi
      exact .inr (.inr (.inl ⟨s.execOutcome_eq_halt_iff.mpr hsel, herr, rfl⟩))
    · have hcontrol := sameControl_of_ne_halt hi s
      exact .inr (.inr (.inr
        ⟨State.execOutcome_of_select_runs hsel hi, herr, hcontrol.err.trans herr, hcontrol.run⟩))

/-! ### A step that does not retire is the last one that changes anything (44_engine.md R158) -/

theorem step_of_latched {s : State} (h : s.err ≠ none) : step s = .next s := by
  rw [step_eq, stepEffect_of_latched h]
  rfl

/-- HALT keeps `pc` at the sentinel, so the next step halts again (decision D8 of the spec, log entry 9). -/
theorem step_halt_of_execOutcome {s : State} (h : s.execOutcome = .halt) : step s.halt = .next s.halt := by
  have hsel : s.halt.select = .runs .halt := s.execOutcome_eq_halt_iff.mp h
  rw [step, execOne, hsel]
  rfl

/-- After a halt, an error or a block the engine stays where it is. -/
theorem step_fixed_of_not_retired {s t : State} (h : step s = .next t) (hout : s.execOutcome ≠ .retired) :
    step t = .next t := by
  obtain ⟨-, -, rfl⟩ | ⟨-, -, e, rfl⟩ | ⟨hhalt, -, rfl⟩ | ⟨hretired, -⟩ := stepIsPrecise s t h
  · exact h
  · exact step_of_latched (Option.some_ne_none e)
  · exact step_halt_of_execOutcome hhalt
  · exact absurd hretired hout

/-! ### Batches and plain iteration (44_engine.md R157) -/

theorem run_succ_of_step {s t : State} (h : step s = .next t) (n : Nat) : core.run (n + 1) s = core.run n t := by
  have hcore : core.step s = .next t := h
  simp only [Host.Core.run, hcore]

theorem runBatch_succ_of_step {s t : State} (h : step s = .next t) (n : Nat) :
    runBatch (n + 1) s = if s.execOutcome = .retired then runBatch n t else .next t := by
  rw [runBatch, h]

theorem run_of_step_fixed {s : State} (h : step s = .next s) (n : Nat) : core.run n s = .next s := by
  induction n with
  | zero => rfl
  | succ n ih => rw [run_succ_of_step h, ih]

/-- The machine's steps compose, since none of them stops it (00_scope.md R12). -/
theorem run_add {m n : Nat} {s t : State} (h : core.run m s = .next t) : core.run (m + n) s = core.run n t := by
  induction m generalizing s with
  | zero =>
    cases h
    rw [Nat.zero_add]
  | succ m ih =>
    obtain ⟨u, hu⟩ := step_completes s
    rw [run_succ_of_step hu] at h
    rw [Nat.succ_add, run_succ_of_step hu, ih h]

/-- Settles O45: by induction on the batch; where it ends early, the remaining steps change nothing. -/
theorem batchIsIteratedStep : Obligations.BatchIsIteratedStep := by
  intro n
  induction n with
  | zero => exact fun s => rfl
  | succ n ih =>
    intro s
    obtain ⟨t, ht⟩ := step_completes s
    rw [run_succ_of_step ht, runBatch_succ_of_step ht]
    split
    case isTrue => exact ih t
    case isFalse hout => exact (run_of_step_fixed (step_fixed_of_not_retired ht hout) n).symm

/-- Settles O46: batches are iterations of the step, and iterations add up. -/
theorem batchesCompose : Obligations.BatchesCompose := by
  intro m n s t h
  rw [batchIsIteratedStep] at h ⊢
  rw [batchIsIteratedStep, run_add h]

end Sys2Proof.Machine

/-! ## The throttle: its budget and its tick (45_throttle.md) -/

namespace Sys2Proof.Machine

/-! ### The budget is a floor (45_throttle.md R182) -/

theorem Timestamp.den_cast_ne_zero (t : Timestamp) : (t.den : Rat) ≠ 0 :=
  Nat.cast_ne_zero.mpr t.den_pos.ne'

/-- The rational product of R182 over the common denominator of the two timestamps: the division that `budget`
makes among the integers, before it is rounded. -/
theorem freq_mul_seconds_sub_eq_div (freq : Nat) (t0 now : Timestamp) :
    (freq : Rat) * (now.seconds - t0.seconds) =
      (((freq : Int) * ((now.num : Int) * (t0.den : Int) - (t0.num : Int) * (now.den : Int)) : Int) : Rat) /
        ((now.den * t0.den : Nat) : Rat) := by
  rw [Timestamp.seconds, Timestamp.seconds, div_sub_div _ _ now.den_cast_ne_zero t0.den_cast_ne_zero, mul_div_assoc']
  push_cast
  ring

/-- Integer division rounds the quotient over the common denominator down, for a negative quotient too. -/
theorem budget_eq_floor (freq : Nat) (t0 now : Timestamp) :
    budget freq t0 now = ⌊(freq : Rat) * (now.seconds - t0.seconds)⌋ := by
  rw [freq_mul_seconds_sub_eq_div, Rat.floor_intCast_div_natCast, Nat.cast_mul, budget]

/-- Settles O47: the budget is the rational floor, over the common denominator of the two timestamps. -/
theorem budgetIsExactFloor : Obligations.BudgetIsExactFloor := budget_eq_floor

/-! ### The tick, one equation a line of its listing (45_throttle.md R183) -/

theorem tickOp_of_latched_or_not_running {s : State} (now : Timestamp) (h : s.err ≠ none ∨ s.run ≠ .running) :
    tickOp now s = .next s :=
  if_pos h

section
variable {s : State} (now : Timestamp) (herr : s.err = none) (hrun : s.run = .running)
include herr hrun

theorem tickOp_of_no_baseline (hbase : s.base = none) : tickOp now s = .next { s with base := some now } := by
  simp [tickOp, herr, hrun, hbase]

theorem tickOp_of_budget_nonpos {t0 : Timestamp} (hbase : s.base = some t0) (hbudget : budget s.freq t0 now ≤ 0) :
    tickOp now s = .next s := by
  simp [tickOp, herr, hrun, hbase, hbudget]

theorem tickOp_of_budget_pos {t0 : Timestamp} (hbase : s.base = some t0) (hbudget : 0 < budget s.freq t0 now) :
    tickOp now s = thenNotify (runBatch (budget s.freq t0 now).toNat { s with base := some now }) := by
  simp [tickOp, herr, hrun, hbase, hbudget.not_ge]

end

/-- Settles O48: each clause is the tick's equation for its line; the batch of the last one completes. -/
theorem tickFollowsItsListing : Obligations.TickFollowsItsListing := by
  intro now s
  simp only [← budget_eq_floor]
  refine ⟨tickOp_of_latched_or_not_running now, tickOp_of_no_baseline now,
    fun t0 herr hrun => tickOp_of_budget_nonpos now herr hrun, fun t0 herr hrun hbase hbudget => ?_⟩
  obtain ⟨u, hbatch⟩ := runBatch_completes (budget s.freq t0 now).toNat { s with base := some now }
  have htick := tickOp_of_budget_pos now herr hrun hbase hbudget
  rw [hbatch] at htick
  exact ⟨u, hbatch, htick⟩

end Sys2Proof.Machine

/-! ## The Display Differ: tracking, conversion and the flush (46_display_differ.md) -/

namespace Sys2Proof.Machine

/-! ### Every colour at the sink is converted (R202, R203) -/

/-- Each component of an event is the converter's: red and blue end in three zero bits, green in two. -/
theorem convertedColour_pixelEvent (screen : Memory) (o : Offset) : ConvertedColour (pixelEvent screen o) := by
  refine ⟨?_, ?_, ?_⟩
  · rw [pixelEvent, redOf_toNat, Nat.mul_mod_left]
  · rw [pixelEvent, greenOf_toNat, Nat.mul_mod_left]
  · rw [pixelEvent, blueOf_toNat, Nat.mul_mod_left]

/-- The property speaks of the pixel trace alone. -/
theorem SinkConverted.of_sink_eq {s t : State} (h : SinkConverted s) (hsink : t.sink = s.sink) : SinkConverted t := by
  rwa [SinkConverted, hsink]

/-- A flush appends one record, and every event in it is fresh from the converter. -/
theorem SinkConverted.flush {s : State} (h : SinkConverted s) : SinkConverted s.flush := by
  intro record hrecord e he
  rw [State.flush_sink, List.mem_append, List.mem_singleton] at hrecord
  obtain hold | rfl := hrecord
  · exact h record hold e he
  · obtain ⟨o, -, rfl⟩ := List.mem_map.mp he
    exact convertedColour_pixelEvent s.screen o

/-- The flush is the only effect that writes the pixel trace. -/
theorem SinkConverted.apply {s : State} (h : SinkConverted s) (e : Effect) : SinkConverted (e.apply s) := by
  cases e with
  | flush => exact h.flush
  | store a v => exact h.of_sink_eq (s.memWrite_sink a v)
  | stay | write | jump | link | halt | raise => exact h

theorem SinkConverted.of_execution {s t : State} (h : SinkConverted s) (hexec : Execution s t) : SinkConverted t := by
  induction hexec with
  | refl => exact h
  | step _ hu ih =>
    rw [step_eq_next hu]
    exact ih.apply _
  | base _ _ ih => exact ih
  | notified _ ih => exact ih

/-- Settles O32: a step is an effect, and a host operation that executes nothing leaves the pixel trace alone. -/
theorem sinkColoursStayConverted : Obligations.SinkColoursStayConverted := by
  refine ⟨fun s t hs h => ?step, fun op s t hs h => ?host⟩
  case step =>
    rw [step_eq_next h]
    exact hs.apply _
  case host =>
    cases hostEffect_of_hostStep h with
    | executes _ hexec => exact hs.of_execution hexec
    | load | setCell => exact hs.of_sink_eq (by simp)
    | unchanged | keyboard | start | stop | reset | frequency => exact hs

/-! ### The DirtySet (R200) -/

/-- A store appends its offset exactly when its address is a screen address; the value plays no part. -/
theorem State.memWrite_dirty_toNat (s : State) (a v : W16) :
    (s.memWrite a v).dirty.map BitVec.toNat =
      s.dirty.map BitVec.toNat ++ (if 0x4000 ≤ a.toNat ∧ a.toNat ≤ 0x5FFF then [a.toNat - 0x4000] else []) := by
  obtain ⟨h, e⟩ | ⟨hlo, hhi, e⟩ | ⟨h, e⟩ := s.memWrite_cases a v <;> rw [e]
  · rw [if_neg (by omega), List.append_nil]
  · rw [if_pos (by omega), List.map_append, List.map_singleton, screenOffset_toNat hlo hhi]
  · rw [if_neg (by omega), List.append_nil]

/-- Settles O41: SW is the one instruction whose effect is a store, DISPLAY the one whose effect is the flush. -/
theorem dirtySetTracksScreenStores : Obligations.DirtySetTracksScreenStores := by
  intro i s t h
  obtain rfl := exec_eq_next h
  cases i with
  | sw rt rs imm => exact s.memWrite_dirty_toNat (s.effectiveAddress rs imm) (s.reg rt)
  | and | or | add | sub | slt | lw | beq | j | addi | bne | jr | jal | display | halt => rfl

/-! ### What the sink shows after a flush (R204, R210) -/

/-- Column and row together fix the offset: they are its remainder and its quotient by 128. -/
theorem columnOf_eq_and_rowOf_eq_iff {p o : Offset} : columnOf p = columnOf o ∧ rowOf p = rowOf o ↔ p = o := by
  refine ⟨fun ⟨hcol, hrow⟩ => ?_, fun h => h ▸ ⟨rfl, rfl⟩⟩
  have hmod : p.toNat % 128 = o.toNat % 128 := Fin.mk.inj hcol
  have hdiv : p.toNat / 128 = o.toNat / 128 := Fin.mk.inj hrow
  exact BitVec.eq_of_toNat_eq (by omega)

/-- What later events paint at a pixel covers what earlier ones painted there (R205). -/
theorem paintedAt_append_of_eq_some {later : List PixelEvent} {x : Fin 128} {y : Fin 64}
    {c : BitVec 8 × BitVec 8 × BitVec 8} (earlier : List PixelEvent) (h : paintedAt later x y = some c) :
    paintedAt (earlier ++ later) x y = some c := by
  induction earlier with
  | nil => exact h
  | cons e earlier ih => rw [List.cons_append, paintedAt, ih]

/-- A record made from one screen paints exactly the offsets it lists, each in that screen's colour: of several events
for one pixel, all carry the same colour (R206). -/
theorem paintedAt_map_pixelEvent (screen : Memory) (offsets : List Offset) (o : Offset) :
    paintedAt (offsets.map (pixelEvent screen)) (columnOf o) (rowOf o) =
      if o ∈ offsets then
        some (redOf (screen.read o.toNat), greenOf (screen.read o.toNat), blueOf (screen.read o.toNat))
      else none := by
  induction offsets with
  | nil => rfl
  | cons p offsets ih =>
    rw [List.map_cons, paintedAt, ih]
    by_cases htail : o ∈ offsets
    · simp [htail]
    · by_cases hhead : p = o
      · simp [htail, hhead, pixelEvent]
      · simp [htail, hhead, Ne.symm hhead, pixelEvent, columnOf_eq_and_rowOf_eq_iff]

/-- Settles O42: the flush's record is the last one painted, and the screen it was made from is still the current
one. -/
theorem flushPaintsCurrentScreen : Obligations.FlushPaintsCurrentScreen := by
  intro s t o ho h
  obtain rfl := exec_eq_next h
  have hstream : s.flush.advance.sink.flatten = s.sink.flatten ++ s.dirty.map (pixelEvent s.screen) := by simp
  have hrecord := (paintedAt_map_pixelEvent s.screen s.dirty o).trans (if_pos ho)
  exact hstream ▸ paintedAt_append_of_eq_some s.sink.flatten hrecord

end Sys2Proof.Machine

/-! ## The host interface: what each operation does and what it keeps (47_host_interface.md, 70_reset_and_hazards.md) -/

namespace Sys2Proof.Machine

/-! ### The invariant over the host's operations (R215) -/

theorem Inv.of_execution {s t : State} (h : Inv s) (hexec : Execution s t) : Inv t := by
  induction hexec with
  | refl => exact h
  | step _ hu ih => exact stepKeepsInvariant _ _ ih hu
  | base _ _ ih => exact { ih with }
  | notified _ ih => exact { ih with }

theorem Inv.wf_region {s : State} (h : Inv s) (region : Region) : (s.region region).wf (capacity region) = true := by
  cases region with
  | rom => exact h.rom
  | ram => exact h.ram

theorem Inv.setRegion {s : State} (h : Inv s) {region : Region} {m : Memory} (hm : m.wf (capacity region) = true) :
    Inv (s.setRegion region m) := by
  cases region with
  | rom => exact { h with rom := hm }
  | ram => exact { h with ram := hm }

theorem Inv.notified {s : State} (h : Inv s) : Inv s.notified := { h with }

/-- Settles O31: a region is replaced by a canonical memory, executions keep the invariant step by step, and `start`
and `stop` leave Halted only where no error is latched. -/
theorem hostOperationKeepsInvariant : Obligations.HostOperationKeepsInvariant := by
  intro op s t hs h
  cases hostEffect_of_hostStep h with
  | load hfits => exact (hs.setRegion (Memory.wf_ofWords hfits)).notified
  | setCell hbound => exact (hs.setRegion (Memory.wf_write _ (hs.wf_region _) hbound)).notified
  | executes _ hexec => exact hs.of_execution hexec
  | start herr _ => exact { hs with latch := fun hlatched => absurd herr hlatched }
  | stop hrun =>
    refine { hs with latch := fun hlatched => ?_ }
    have hhalted := hs.latch hlatched
    rw [hrun] at hhalted
    cases hhalted
  | reset => exact { hs with ram := Memory.wf_nil _, latch := fun hlatched => absurd rfl hlatched }
  | unchanged | keyboard | frequency => exact { hs with }

/-! ### What replacing a region does to every field (R217, R220, R222) -/

@[simp] theorem State.setRegion_regs (s : State) (region : Region) (m : Memory) :
    (s.setRegion region m).regs = s.regs := by cases region <;> rfl

@[simp] theorem State.setRegion_pc (s : State) (region : Region) (m : Memory) :
    (s.setRegion region m).pc = s.pc := by cases region <;> rfl

@[simp] theorem State.setRegion_screen (s : State) (region : Region) (m : Memory) :
    (s.setRegion region m).screen = s.screen := by cases region <;> rfl

@[simp] theorem State.setRegion_dirty (s : State) (region : Region) (m : Memory) :
    (s.setRegion region m).dirty = s.dirty := by cases region <;> rfl

@[simp] theorem State.setRegion_run (s : State) (region : Region) (m : Memory) :
    (s.setRegion region m).run = s.run := by cases region <;> rfl

@[simp] theorem State.setRegion_freq (s : State) (region : Region) (m : Memory) :
    (s.setRegion region m).freq = s.freq := by cases region <;> rfl

@[simp] theorem State.setRegion_base (s : State) (region : Region) (m : Memory) :
    (s.setRegion region m).base = s.base := by cases region <;> rfl

@[simp] theorem State.setRegion_notify (s : State) (region : Region) (m : Memory) :
    (s.setRegion region m).notify = s.notify := by cases region <;> rfl

theorem State.region_setRegion (s : State) (region other : Region) (m : Memory) :
    (s.setRegion region m).region other = if other = region then m else s.region other := by
  cases region <;> cases other <;> rfl

@[simp] theorem State.region_setRegion_self (s : State) (region : Region) (m : Memory) :
    (s.setRegion region m).region region = m := by
  rw [State.region_setRegion, if_pos rfl]

theorem State.region_setRegion_of_ne (s : State) {region other : Region} (m : Memory) (h : other ≠ region) :
    (s.setRegion region m).region other = s.region other := by
  rw [State.region_setRegion, if_neg h]

@[simp] theorem State.region_notified (s : State) (region : Region) : s.notified.region region = s.region region := by
  cases region <;> rfl

/-- The frame of a load and of a cell edit. -/
theorem State.setRegion_notified_frame {s t : State} {region : Region} {m : Memory}
    (h : t = (s.setRegion region m).notified) :
    (∀ other, other ≠ region → t.region other = s.region other) ∧
    t.notify = s.notify + 1 ∧
    t.regs = s.regs ∧ t.pc = s.pc ∧ t.screen = s.screen ∧ t.kbd = s.kbd ∧ t.dirty = s.dirty ∧
    t.run = s.run ∧ t.err = s.err ∧ t.freq = s.freq ∧ t.base = s.base ∧ t.sink = s.sink := by
  subst h
  refine ⟨fun other hne => ?_, ?_⟩
  · rw [State.region_notified, State.region_setRegion_of_ne s m hne]
  · simp

/-- Settles O35: what is left beside `step` and `tick` replaces a region, a single register of the machine, or is
reset, which keeps screen, DirtySet and pixel trace. -/
theorem hostOperationsCannotReachScreenOrRegisters : Obligations.HostOperationsCannotReachScreenOrRegisters := by
  intro op s t h hstep htick
  cases hostEffect_of_hostStep h with
  | executes hop _ =>
    obtain rfl | ⟨now, rfl⟩ := hop
    · exact absurd rfl hstep
    · exact absurd rfl (htick now)
  | load | setCell => simp
  | reset => exact ⟨rfl, rfl, rfl, fun hne => absurd rfl hne⟩
  | unchanged | keyboard | start | stop | frequency => exact ⟨rfl, rfl, rfl, fun _ => ⟨rfl, rfl⟩⟩

/-! ### Loads and cell edits, one equation a case (R217, R218, R220) -/

section
variable {region : Region} {words : List W16} {index : Nat} (value : W16) (s : State)

theorem loadOp_of_le (h : words.length ≤ capacity region) :
    loadOp region words s = (s.setRegion region (Memory.ofWords 0 words)).notified :=
  if_pos h

theorem loadOp_of_gt (h : capacity region < words.length) : loadOp region words s = s :=
  if_neg (Nat.not_le.mpr h)

theorem setCellOp_of_lt (h : index < capacity region) :
    setCellOp region index value s = (s.setRegion region ((s.region region).write index value)).notified :=
  if_pos h

theorem setCellOp_of_ge (h : capacity region ≤ index) : setCellOp region index value s = s :=
  if_neg (Nat.not_lt.mpr h)

end

theorem Memory.read_write {cap : Nat} {m : Memory} (hm : m.wf cap = true) (a b : Nat) (v : W16) :
    (m.write a v).read b = if b = a then v else m.read b := by
  split
  case isTrue heq => rw [heq, Memory.read_write_self v hm]
  case isFalse hne => exact Memory.read_write_of_ne m v hne

/-- Settles O53: the region is the image, whose cells past the words are unlisted; the rest is framed. -/
theorem loadReplacesRegionOrFails : Obligations.LoadReplacesRegionOrFails := by
  intro region words s
  refine ⟨fun hfits => ?fits, fun hlarge => ?tooLarge⟩
  case fits =>
    replace hfits : words.length ≤ capacity region := by cases region <;> exact hfits
    have hload := loadOp_of_le s hfits
    refine ⟨if_pos hfits, _, rfl, fun i => ?cells, State.setRegion_notified_frame hload⟩
    rw [hload, State.region_notified, State.region_setRegion_self, Memory.read_ofWords, if_pos (Nat.zero_le i)]
    rfl
  case tooLarge =>
    replace hlarge : capacity region < words.length := by cases region <;> exact hlarge
    exact ⟨if_neg (Nat.not_le.mpr hlarge), congrArg Host.Outcome.next (loadOp_of_gt s hlarge)⟩

/-- Settles O54: a write to a canonical memory sets the one cell; the rest is framed. -/
theorem setCellEditsOneCell : Obligations.SetCellEditsOneCell := by
  intro region index value s hs
  refine ⟨fun hin => ?inBounds, fun hout => ?outOfBounds⟩
  case inBounds =>
    replace hin : index < capacity region := by cases region <;> exact hin
    have hedit := setCellOp_of_lt value s hin
    refine ⟨_, rfl, fun i => ?cells, State.setRegion_notified_frame hedit⟩
    rw [hedit, State.region_notified, State.region_setRegion_self, Memory.read_write (hs.wf_region region)]
  case outOfBounds =>
    replace hout : capacity region ≤ index := by cases region <;> exact hout
    exact congrArg Host.Outcome.next (setCellOp_of_ge value s hout)

/-! ### The single step (R224) -/

@[simp] theorem Effect.apply_freq (e : Effect) (s : State) : (e.apply s).freq = s.freq := by
  cases e <;> simp [Effect.apply]

@[simp] theorem Effect.apply_base (e : Effect) (s : State) : (e.apply s).base = s.base := by
  cases e <;> simp [Effect.apply]

@[simp] theorem Effect.apply_notify (e : Effect) (s : State) : (e.apply s).notify = s.notify := by
  cases e <;> simp [Effect.apply]

theorem notify_of_step {s t : State} (h : step s = .next t) : t.notify = s.notify := by
  rw [step_eq_next h, Effect.apply_notify]

/-- An engine step moves the run state only where it halts or takes an error. -/
theorem run_of_step {s t : State} (h : step s = .next t) :
    t.run = s.run ∨ (t.run = .halted ∧ s.execOutcome ≠ .retired) := by
  obtain ⟨-, -, rfl⟩ | ⟨hout, -, e, rfl⟩ | ⟨hout, -, rfl⟩ | ⟨-, -, -, hrun⟩ := stepIsPrecise s t h
  · exact .inl rfl
  · exact .inr ⟨rfl, by simp [hout]⟩
  · exact .inr ⟨rfl, by simp [hout]⟩
  · exact .inl hrun

theorem stepOp_of_latched {s : State} (h : s.err ≠ none) : stepOp s = .next s :=
  if_pos h

theorem stepOp_of_step {s u : State} (herr : s.err = none) (h : step s = .next u) : stepOp s = .next u.notified := by
  rw [stepOp, if_neg (not_not.mpr herr), h, thenNotify]

/-- Settles O49: no effect writes the scheduler's state, and only a halt or an error moves the run state. -/
theorem singleStepIsOneExecOne : Obligations.SingleStepIsOneExecOne := by
  intro s u herr h
  have hrun := run_of_step h
  refine ⟨stepOp_of_step herr h, ?freq, ?base, notify_of_step h, hrun.imp_right And.left, fun hretired => ?run⟩
  case freq => rw [step_eq_next h, Effect.apply_freq]
  case base => rw [step_eq_next h, Effect.apply_base]
  case run => exact hrun.resolve_right fun hstopped => hstopped.right hretired

/-! ### Start, stop, reset, keyboard and frequency (R223, R225 to R227) -/

theorem startOp_of_ready {s : State} (herr : s.err = none) (hrun : s.run ≠ .running) :
    startOp s = { s with run := .running, base := none } :=
  if_pos ⟨herr, hrun⟩

theorem startOp_of_latched_or_running {s : State} (h : s.err ≠ none ∨ s.run = .running) : startOp s = s :=
  if_neg fun ⟨herr, hrun⟩ => h.elim (absurd herr) hrun

theorem stopOp_of_running {s : State} (h : s.run = .running) : stopOp s = { s with run := .idle } :=
  if_pos h

theorem stopOp_of_not_running {s : State} (h : s.run ≠ .running) : stopOp s = s :=
  if_neg h

/-- Settles O50: each clause is one branch of the two operations. -/
theorem startAndStopMoveTheRunState : Obligations.StartAndStopMoveTheRunState := fun _ =>
  ⟨fun herr hrun => congrArg Host.Outcome.next (startOp_of_ready herr hrun),
    fun h => congrArg Host.Outcome.next (startOp_of_latched_or_running h),
    fun h => congrArg Host.Outcome.next (stopOp_of_running h),
    fun h => congrArg Host.Outcome.next (stopOp_of_not_running h)⟩

theorem Regs.get_reset (r : Reg) : Regs.reset.get r = if r = .r6 then 0x3FFF else 0x0000 := by
  cases r <;> rfl

/-- Settles O51: field by field, every cell of an empty RAM being unlisted. -/
theorem resetOperationSetsAndKeeps : Obligations.ResetOperationSetsAndKeeps := fun s =>
  ⟨resetOp s, rfl, Regs.get_reset, rfl, Memory.read_nil, rfl, rfl, rfl, rfl, rfl, rfl, rfl, rfl, rfl, rfl⟩

/-- The key code is at one data address and at no other. -/
theorem memRead_setKeyboardOp (code : W16) (s : State) (a : W16) :
    (setKeyboardOp code s).memRead a = if a.toNat = 0x6000 then code else s.memRead a := by
  rw [State.memRead_eq, State.memRead_eq]
  by_cases ha : a.toNat = 0x6000
  · rw [if_neg (by omega), if_neg (by omega), if_pos ha, if_pos ha]
    rfl
  · simp only [if_neg ha]
    rfl

/-- Settles O55: both are stored, and the Memory Bus sees the key code at its one address. -/
theorem keyboardAndFrequencyStoredVerbatim : Obligations.KeyboardAndFrequencyStoredVerbatim :=
  fun s code _ => ⟨⟨setKeyboardOp code s, rfl, rfl, memRead_setKeyboardOp code s⟩, rfl⟩

/-! ### Notifications (R228) -/

theorem notify_of_runBatch {n : Nat} {s t : State} (h : runBatch n s = .next t) : t.notify = s.notify :=
  runBatch_keeps (P := fun u => u.notify = s.notify) (fun _ _ hu hstep => (notify_of_step hstep).trans hu) n s t rfl h

/-- The tick at `now` runs a batch: nothing stops it, and the time since the baseline is worth an instruction. -/
def TickRunsBatch (now : Timestamp) (s : State) : Prop :=
  s.err = none ∧ s.run = .running ∧ ∃ t0, s.base = some t0 ∧ 1 ≤ (s.freq : Rat) * (now.seconds - t0.seconds)

theorem budget_pos_iff (freq : Nat) (t0 now : Timestamp) :
    0 < budget freq t0 now ↔ 1 ≤ (freq : Rat) * (now.seconds - t0.seconds) := by
  rw [budget_eq_floor, Int.floor_pos]

/-- With a baseline set, a batch runs exactly for a positive budget. -/
theorem budget_pos_of_tickRunsBatch {now t0 : Timestamp} {s : State} (h : TickRunsBatch now s)
    (hbase : s.base = some t0) : 0 < budget s.freq t0 now := by
  obtain ⟨-, -, t1, hbase', hworth⟩ := h
  obtain rfl : t0 = t1 := Option.some.inj (hbase.symm.trans hbase')
  exact (budget_pos_iff _ _ _).mpr hworth

/-- From `s` to `t` at most one notification is sent, and it is sent exactly when `P` holds. -/
def NotifiesIff (P : Prop) (s t : State) : Prop :=
  (t.notify = s.notify ∨ t.notify = s.notify + 1) ∧ (t.notify = s.notify + 1 ↔ P)

theorem NotifiesIff.of_sent {P : Prop} {s t : State} (hP : P) (h : t.notify = s.notify + 1) : NotifiesIff P s t :=
  ⟨.inr h, iff_of_true h hP⟩

theorem NotifiesIff.of_silent {P : Prop} {s t : State} (hP : ¬P) (h : t.notify = s.notify) : NotifiesIff P s t :=
  ⟨.inl h, iff_of_false (by omega) hP⟩

theorem notifiesIff_loadOp (region : Region) (words : List W16) (s : State) :
    NotifiesIff (words.length ≤ capacity region) s (loadOp region words s) := by
  by_cases h : words.length ≤ capacity region
  · exact .of_sent h (by rw [loadOp_of_le s h]; simp)
  · exact .of_silent h (by rw [loadOp_of_gt s (Nat.not_le.mp h)])

theorem notifiesIff_setCellOp (region : Region) (index : Nat) (value : W16) (s : State) :
    NotifiesIff (index < capacity region) s (setCellOp region index value s) := by
  by_cases h : index < capacity region
  · exact .of_sent h (by rw [setCellOp_of_lt value s h]; simp)
  · exact .of_silent h (by rw [setCellOp_of_ge value s (Nat.not_lt.mp h)])

/-- Of the four lines of a tick only the last, the batch, sends a notification. -/
theorem notifiesIff_tickOp {now : Timestamp} {s t : State} (h : tickOp now s = .next t) :
    NotifiesIff (TickRunsBatch now s) s t := by
  obtain ⟨hidle, e⟩ | ⟨-, -, hbase, e⟩ | ⟨t0, -, -, hbase, hbudget, e⟩ | ⟨t0, herr, hrun, hbase, hbudget, e⟩ :=
    tickOp_cases now s <;> rw [e] at h
  · cases h
    exact .of_silent (fun ⟨herr, hrun, _⟩ => hidle.elim (absurd herr) (absurd hrun)) rfl
  · cases h
    exact .of_silent (fun ⟨_, _, t0, hbase', _⟩ => Option.some_ne_none t0 (hbase'.symm.trans hbase)) rfl
  · cases h
    exact .of_silent (fun hruns => absurd (budget_pos_of_tickRunsBatch hruns hbase) hbudget.not_gt) rfl
  · obtain ⟨u, hbatch, rfl⟩ := thenNotify_eq_next h
    have hnotify := notify_of_runBatch hbatch
    exact .of_sent ⟨herr, hrun, t0, hbase, (budget_pos_iff _ _ _).mp hbudget⟩ (congrArg (· + 1) hnotify)

theorem notifiesIff_stepOp {s t : State} (h : stepOp s = .next t) : NotifiesIff (s.err = none) s t := by
  obtain ⟨herr, rfl⟩ | ⟨herr, u, hu, rfl⟩ := stepOp_cases h
  · exact .of_silent herr rfl
  · exact .of_sent herr (congrArg (· + 1) (notify_of_step hu))

theorem notify_startOp (s : State) : (startOp s).notify = s.notify := by
  unfold startOp
  split <;> rfl

theorem notify_stopOp (s : State) : (stopOp s).notify = s.notify := by
  unfold stopOp
  split <;> rfl

/-- Settles O56: the condition of each operation is that of the one branch that sends the notification. -/
theorem notificationPoints : Obligations.NotificationPoints := by
  intro op s t h
  cases op with
  | load region words =>
    obtain rfl : loadOp region words s = t := Host.Outcome.next.inj h
    have hload := notifiesIff_loadOp region words s
    cases region <;> exact hload
  | setCell region index value =>
    obtain rfl : setCellOp region index value s = t := Host.Outcome.next.inj h
    have hedit := notifiesIff_setCellOp region index value s
    cases region <;> exact hedit
  | tick now => exact notifiesIff_tickOp h
  | step => exact notifiesIff_stepOp h
  | reset => cases h; exact NotifiesIff.of_sent trivial rfl
  | start =>
    obtain rfl : startOp s = t := Host.Outcome.next.inj h
    exact NotifiesIff.of_silent not_false (notify_startOp s)
  | stop =>
    obtain rfl : stopOp s = t := Host.Outcome.next.inj h
    exact NotifiesIff.of_silent not_false (notify_stopOp s)
  | setKeyboardValue | setFrequency => cases h; exact NotifiesIff.of_silent not_false rfl

end Sys2Proof.Machine

/-! ## Errors, the latch, and the call (60_exceptions.md, 70_reset_and_hazards.md) -/

namespace Sys2Proof.Machine

/-! ### Where a step takes an error (60_exceptions.md R241 to R244) -/

theorem step_of_select_raises {s : State} {e : EngineError} (h : s.select = .raises e) :
    step s = .next (s.raiseError e) := by
  rw [step, execOne, h]

theorem step_of_decode_error {s : State} {d : DecodeError} (herr : s.err = none) (hpc : s.pc.toNat < 0x8000)
    (hdecode : decode (s.rom.read s.pc.toNat) = .error d) : step s = .next (s.raiseError (errorOf d)) := by
  have hfetch : s.fetch = .ok (s.rom.read s.pc.toNat) := if_pos hpc
  exact step_of_select_raises (by simp [State.select, herr, hfetch, hdecode])

/-- Settles O24: the fetch guard is the first test after the latch. -/
theorem fetchOutsideRomTakesError : Obligations.FetchOutsideRomTakesError := by
  intro s herr hpc
  have hfetch : s.fetch = .error (.fetchOutOfRom s.pc) := if_neg (Nat.not_lt.mpr hpc)
  exact step_of_select_raises (by simp [State.select, herr, hfetch])

/-- Settles O25: the words of the range are the ones decode rejects with their opcode field. -/
theorem illegalOpcodeTakesError : Obligations.IllegalOpcodeTakesError := by
  intro s herr hpc hlo hhi
  have hop := decodeFields_op_toNat (s.rom.read s.pc.toNat)
  have hdecode := (decode_eq_invalidOpcode_iff (s.rom.read s.pc.toNat) _).mpr ⟨hlo, hhi, hop⟩
  exact ⟨_, hop, step_of_decode_error herr hpc hdecode⟩

/-- The ALU answers the error of a function code in the hole of R115 whatever its operands. -/
theorem alu_of_hole {funct : BitVec 3} (h : funct.toNat = 3 ∨ funct.toNat = 4 ∨ funct.toNat = 5) (a b : W16) :
    alu funct a b = .error (.invalidALUFunction funct) := by
  obtain h | h | h := h <;> simp [alu, h]

/-- Settles O26: the words are the ones decode rejects with their function code, and the ALU has the same hole. -/
theorem illegalFunctionTakesError : Obligations.IllegalFunctionTakesError := by
  intro s herr hpc hword hlo hhi
  have hfunct := decodeFields_funct_toNat (s.rom.read s.pc.toNat)
  have hdecode := (decode_eq_invalidALUFunction_iff (s.rom.read s.pc.toNat) _).mpr ⟨hword, by omega, hfunct⟩
  exact ⟨_, hfunct, step_of_decode_error herr hpc hdecode, alu_of_hole (by omega)⟩

/-- Settles O27: the latch is the first test of the engine's step and of the host's `step`, `start` and `tick`. -/
theorem latchedErrorBlocks : Obligations.LatchedErrorBlocks := fun _ h =>
  ⟨step_of_latched h, stepOp_of_latched h, congrArg Host.Outcome.next (startOp_of_latched_or_running (.inl h)),
    fun now => tickOp_of_latched_or_not_running now (.inl h)⟩

/-! ### A call and its return (70_reset_and_hazards.md R276) -/

/-- Settles O44: JAL links its own index and JR lands one past register 7, which is the index after the call. -/
theorem callThenReturnLandsAfterCall : Obligations.CallThenReturnLandsAfterCall := by
  intro s addr herr hpc hcall hreturn
  obtain ⟨hjal, t, hexecJal, hlink, hpage, -, -, -, hcontrol⟩ := jalRunsWithFrame addr s
  obtain ⟨u, hexecJr, hback, hregs, -⟩ := exec_of_effectOf_eq_jump (i := .jr .r7) (s := t) rfl
  have haddr := addr.isLt
  have hword : t.rom.read t.pc.toNat = 0x7E00 := by rw [hcontrol.rom, hpage, hreturn]
  have hjr : decode (t.rom.read t.pc.toNat) = .ok (.jr .r7) := by
    rw [hword]
    decide
  have hstep := stepRunsDecodedInstruction s _ herr hpc (hcall ▸ hjal)
  have hstep' := stepRunsDecodedInstruction t _ (hcontrol.err.trans herr) (by omega) hjr
  exact ⟨t, u, hstep.trans hexecJal, hstep'.trans hexecJr, hpage, by rw [hback, hlink],
    (hregs .r7).trans hlink⟩

end Sys2Proof.Machine
